-- ==== Sys2Proof/Word.lean ====
section
/-! DEFINITION. The byte, and the ASCII codes of the characters the rules name (00_scope.md R11). -/

namespace Sys2Proof

/-- A byte, 8 bits (R11). -/
abbrev Byte := BitVec 8

/-- The ASCII bytes of a text (R11). -/
def asc (text : List Char) : List Byte := text.map fun c => BitVec.ofNat 8 c.toNat

/-- `'$'` (R11). -/
abbrev chDollar : Byte := 0x24#8
/-- `'*'` (R11). -/
abbrev chStar : Byte := 0x2A#8
/-- `','` (R11). -/
abbrev chComma : Byte := 0x2C#8
/-- `'.'` (R11). -/
abbrev chDot : Byte := 0x2E#8
/-- CR, `'\r'` (R11). -/
abbrev chCR : Byte := 0x0D#8
/-- LF, `'\n'` (R11). -/
abbrev chLF : Byte := 0x0A#8

end Sys2Proof
end

