-- ==== Sys2Proof/Machine/Types.lean ====
section
/-! DEFINITION. The data the block moves: frames, messages, input lines, events, verdicts, and the encoded form of an
operation (10_state.md, 30_encoding.md, 60_exceptions.md). -/

namespace Sys2Proof

/-- A Binary Frame as interface signals (R96): `id[28:0]`, `ide`, `dlc[3:0]`, `data[0..7]`. The bytes at or above `dlc`
are whatever the transport presents; no decoder reads them (R75, R185). -/
structure Frame where
  /-- The 29-bit identifier, bit 28 first on the wire (R10, R68). -/
  id : BitVec 29
  /-- The "extended" marker (R96). -/
  ide : Bool
  /-- The payload length (R96). -/
  dlc : BitVec 4
  /-- The payload bytes (R96). -/
  data : Vector Byte 8
deriving DecidableEq, Repr

/-- ENV's answer to a bus submit (R263). -/
inductive BusAnswer where
  | ok
  | timeout
  | error
deriving DecidableEq, Repr

/-- A Converter Message (R101): a frame, or a length-tracked sentence buffer (R62, R94). -/
inductive Msg where
  | fromBus (f : Frame)
  | fromSerial (buf : List Byte)
deriving DecidableEq, Repr

/-- One line of the stimulus notation (R117), what ENV presents to one agent. `can` stands for both frame lines:
`can` has `ide` = 1, `canstd` has `ide` = 0. -/
inductive Token where
  /-- The serial transport delivers a byte: one SRX operation. -/
  | rx (b : Byte)
  /-- The bus transport delivers a frame: one BRX.ENQ. -/
  | can (f : Frame)
  /-- The consumer dequeues: one CON.DEQ. -/
  | deq
  /-- The consumer translates `cur`; `r` is ENV's answer if a submit happens: one CON.EXEC. -/
  | exec (r : BusAnswer)
  /-- The reset input: RESET. -/
  | reset
deriving DecidableEq, Repr

/-- The two producers, as the source of an enqueue (R252). -/
inductive Producer where
  | bus
  | ser
deriving DecidableEq, Repr

/-- The reasons of UnrecognizedIdentifier (R297). -/
inductive UnrecReason where
  | pgn
  | tag
deriving DecidableEq, Repr

/-- The reasons of MalformedInput, in the order of their codes (R297). -/
inductive MalReason where
  | noDollar
  | tooShort
  | badChecksumFormat
  | checksumMismatch
  | fieldMissing
  | fieldEmpty
  | notNumeric
  | outOfRange
  | frameShort
  | frameInvariant
  | outputOverflow
deriving DecidableEq, Repr

/-- The reasons of TransportFailure (R297). -/
inductive TxReason where
  | timeout
  | error
deriving DecidableEq, Repr

/-- A `diag` event: an error class and its reason (R290, R296, R297). Its pair of codes is `Event.codes`. -/
inductive Event where
  | unrecognizedIdentifier (r : UnrecReason)
  | malformedInput (r : MalReason)
  | backpressure (src : Producer)
  | transportFailure (r : TxReason)
deriving DecidableEq, Repr

/-- The verdict of CS.CHK (R135). -/
inductive Verdict where
  | absent
  | badFormat
  | isMatch
  | mismatch
deriving DecidableEq, Repr

/-- What a sub-operation returns to its caller (R35, log entry 9). -/
inductive Ret where
  /-- The wire sentence of a decoder or of CS.GEN. -/
  | sentence (out : List Byte)
  /-- The frame of an encoder. -/
  | frame (f : Frame)
  /-- The result of CS.CHK. -/
  | verdict (v : Verdict) (bodyEnd : Nat)
deriving DecidableEq, Repr

/-- The handlers of the PGN decode table (R38). -/
inductive Decoder where
  | hdt
  | dpt
  | vtg
deriving DecidableEq, Repr

/-- The handlers of the sentence encode table (R39). -/
inductive Encoder where
  | hdt
  | dpt
deriving DecidableEq, Repr

/-- The encoded form of one operation: the format of its row in opcode_table.json together with the bits of that format
(R90; log entry 1). -/
inductive OpWord where
  /-- BYTE: 8 bits (R91). -/
  | byte (b : Byte)
  /-- FRAME: the signals of a received frame (R96). -/
  | frame (f : Frame)
  /-- STATE: CON.DEQ, selected by state and no bits. -/
  | state
  /-- MSG: the 1-bit tag of the message in `cur` (R101), and ENV's answer on the `exec` line (R117). -/
  | msg (tag : BitVec 1) (r : BusAnswer)
  /-- CANID: the frame a decoder is given, selected by `id[25:8]` (R102). -/
  | canid (f : Frame)
  /-- TAG3: the sentence buffer an encoder is given, selected by `buf[3..6)` (R103). -/
  | tag3 (buf : List Byte)
  /-- SUB, CS.GEN: called by a decoder on a body. -/
  | gen (body : List Byte)
  /-- SUB, CS.CHK: called on a sentence buffer. -/
  | chk (buf : List Byte)
  /-- RESET: the reset input. -/
  | reset
deriving DecidableEq, Repr

/-- Why an encoded form selects no operation. -/
inductive DecodeError where
  /-- A CANID whose frame breaks its invariant: R172 drops it before the lookup. -/
  | frameInvariant
  /-- A TAG3 whose buffer fails R211 or R212: it is dropped before the lookup. -/
  | sentenceChecks
  /-- A CS.CHK on the empty buffer: its operand has `len >= 1` (R135). -/
  | emptyBuffer
deriving DecidableEq, Repr

end Sys2Proof
end

