-- ==== Sys2Proof/Syntax.lean ====
section
/-! DEFINITION. The operations of the block: one constructor per row of spec/opcode_table.json (30_encoding.md R104). -/

namespace Sys2Proof

/-- The 17 operations (R104), each with the operands its rule gives it. -/
inductive Instr where
  /-- RX.CR (R151). -/
  | rxCr
  /-- RX.LF (R152). -/
  | rxLf
  /-- RX.DATA (R154). -/
  | rxData (b : Byte)
  /-- BRX.ENQ (R253). -/
  | brxEnq (f : Frame)
  /-- CON.DEQ (R255). -/
  | conDeq
  /-- DISPATCH.FROMBUS (R257, R258): its operand is the frame in `cur`. -/
  | dispatchFromBus
  /-- DISPATCH.FROMSERIAL (R257, R259): its operand is the sentence buffer in `cur`, with ENV's answer `r`. -/
  | dispatchFromSerial (r : BusAnswer)
  /-- DEC.HDT (R178). -/
  | decHdt (f : Frame)
  /-- DEC.DPT (R179). -/
  | decDpt (f : Frame)
  /-- DEC.VTG (R180). -/
  | decVtg (f : Frame)
  /-- DEC.UNREC (R174). -/
  | decUnrec (f : Frame)
  /-- ENC.HDT (R221): the buffer and its `bodyEnd`. -/
  | encHdt (buf : List Byte) (bodyEnd : Nat)
  /-- ENC.DPT (R222): the buffer and its `bodyEnd`. -/
  | encDpt (buf : List Byte) (bodyEnd : Nat)
  /-- ENC.UNREC (R214). -/
  | encUnrec (buf : List Byte)
  /-- CS.GEN (R133). -/
  | csGen (body : List Byte)
  /-- CS.CHK (R135). -/
  | csChk (buf : List Byte)
  /-- RESET (R330). -/
  | reset
deriving DecidableEq, Repr

end Sys2Proof
end

