-- ==== Sys2Proof/Config.lean ====
section
/-! DEFINITION. The configuration record of the block (00_scope.md R7) and the values the spec leaves open. The values of
the record stand in Machine/Params.lean. -/

namespace Sys2Proof

/-- Where a used payload field lies (R7, R72): its byte offset and its width in bytes. -/
structure PayloadField where
  /-- Byte offset in the payload. -/
  off : Nat
  /-- Width in bytes. -/
  bytes : Nat
deriving DecidableEq, Repr

/-- The constants of one quantity (R107, R108): the raw unit is `1 / lsbDen`, the printed unit is `num / den` times the
unit of the raw value, and `decimals` are printed. -/
structure Scale where
  lsbDen : Nat
  num : Nat
  den : Nat
  decimals : Nat
deriving DecidableEq, Repr

/-- The whole configuration of the block (R7), with the payload map (R72), the rendering functions (R177, R180) and the
two registries (R38, R39). -/
structure Config where
  /-- `MAXLEN`: longest ASCII sentence with its terminator; a property of well-formed input, enforced nowhere (C7). -/
  maxLen : Nat
  /-- `RCAP`: capacity of `rbuf`. -/
  rcap : Nat
  /-- `QCAP`: capacity of the queue. -/
  qcap : Nat
  /-- `OUT_CAP`: capacity of `obuf`. -/
  outCap : Nat
  /-- `CNT_W`: width of `bp_count`. -/
  cntW : Nat
  /-- `BUS_TX_TIMEOUT_MS`, nominal: no rule depends on it. -/
  busTxTimeoutMs : Nat
  /-- `TALKER_OUT`. -/
  talkerOut : List Byte
  /-- `SENTINEL`: the "unavailable" byte. -/
  sentinel : Byte
  /-- `CS_ENFORCE`. -/
  csEnforce : Bool
  /-- `PRIO_127250`. -/
  prio127250 : BitVec 3
  /-- `PRIO_128267`. -/
  prio128267 : BitVec 3
  /-- `SRC_ADDR`, OPEN. -/
  srcAddr : Byte
  /-- `RAD2DEG_NUM`. -/
  rad2degNum : Nat
  /-- `RAD2DEG_DEN`. -/
  rad2degDen : Nat
  /-- `ANGLE_LSB` is `1 / angleLsbDen` radian. -/
  angleLsbDen : Nat
  /-- `DEPTH_LSB` is `1 / depthLsbDen` metre. -/
  depthLsbDen : Nat
  /-- `SOG_LSB` is `1 / sogLsbDen` metre per second. -/
  sogLsbDen : Nat
  /-- `MS2KN_NUM`. -/
  ms2knNum : Nat
  /-- `MS2KN_DEN`. -/
  ms2knDen : Nat
  /-- `MS2KMH_NUM`. -/
  ms2kmhNum : Nat
  /-- `MS2KMH_DEN`. -/
  ms2kmhDen : Nat
  /-- The heading of PGN 127250 (R72). -/
  headingField : PayloadField
  /-- The depth of PGN 128267 (R72). -/
  depthField : PayloadField
  /-- The course of PGN 129026 (R72). -/
  courseField : PayloadField
  /-- The speed of PGN 129026 (R72). -/
  speedField : PayloadField
  /-- Decimals printed of an angle (R107). -/
  angleDecimals : Nat
  /-- Decimals printed of a depth (R107). -/
  depthDecimals : Nat
  /-- Decimals printed of a speed (R107). -/
  speedDecimals : Nat
  /-- The field each encoder reads (R215). -/
  fieldIdx : Nat
  /-- The text of a raw angle of this scale (R107, R177). -/
  renderAngle : Scale → Nat → List Byte
  /-- What follows the depth in a `DPT` body (R179, D11). -/
  dptTail : List Byte
  /-- The `VTG` body of the talker and the texts of course, knots and km/h (R109, R180, D12). -/
  vtgBody : List Byte → List Byte → List Byte → List Byte → List Byte
  /-- The PGN decode table (R38). -/
  decodeTable : List (BitVec 18 × Decoder)
  /-- The sentence encode table (R39). -/
  encodeTable : List (List Byte × Encoder)

/-- `SRC_ADDR` has no value in the spec (R7, R219, D17, U4): an open constant (log entry 6). -/
opaque Config.openSrcAddr : Byte

/-- What `obuf` holds after OUTPUT_OVERFLOW is unspecified (R182, U3): the free byte at an index, for a value of the
state's counter (log entry 8). -/
opaque Config.freeByte : Nat → Nat → Byte

end Sys2Proof
end

