-- ==== Sys2Proof/Machine/Operands.lean ====
section
/-! DEFINITION. Operand assembly: identifier fields, payload reads and writes, sentence fields, and the numeric
primitives (00_scope.md R12, 20_memory.md R67 to R73, 30_encoding.md R97 to R108, 42_frame_decode.md R175, R176,
43_sentence_encode.md R215, R216). -/

namespace Sys2Proof

/-- `prio = id[28:26]` (R97, R171). -/
def Frame.prio (f : Frame) : BitVec 3 := f.id.extractLsb' 26 3

/-- `pgn = id[25:8]` (R97, R171). -/
def Frame.pgn (f : Frame) : BitVec 18 := f.id.extractLsb' 8 18

/-- `sa = id[7:0]` (R97, R171). -/
def Frame.sa (f : Frame) : Byte := f.id.extractLsb' 0 8

/-- The frame invariant (R96, R172): the marker is set and the length is at most 8. -/
def Frame.invariantOk (f : Frame) : Bool := f.ide && decide (f.dlc.toNat ≤ 8)

/-- `id = prio * 2^26 + pgn * 2^8 + sa` (R98, R219): the three fields side by side. -/
def composeId (prio : BitVec 3) (pgn : BitVec 18) (sa : Byte) : BitVec 29 := prio ++ pgn ++ sa

/-- `MemRead(space, addr, n)` (R12, R67), little-endian; the proof makes an access outside the space unrepresentable
(R61). -/
def memRead {m : Nat} (space : Vector Byte m) (addr : Nat) : (n : Nat) → addr + n ≤ m → Nat
  | 0, _ => 0
  | n + 1, h => space[addr].toNat + 256 * memRead space (addr + 1) n (by omega)

/-- `MemWrite(space, addr, n, v)` (R12, R67), little-endian. -/
def memWrite {m : Nat} (space : Vector Byte m) (addr : Nat) : (n : Nat) → Nat → addr + n ≤ m → Vector Byte m
  | 0, _, _ => space
  | n + 1, v, h => memWrite (space.set addr (BitVec.ofNat 8 v)) (addr + 1) n (v / 256) (by omega)

/-- `rdiv(a, b)`: the nearest integer to `a / b`, an exact half upward (R175). -/
def rdiv (a b : Nat) : Nat := (2 * a + b) / (2 * b)

/-- The character of a decimal digit. -/
def decDigit (d : Nat) : Byte := BitVec.ofNat 8 (0x30 + d)

/-- The last `fuel` decimal digits of `n`, without leading zeros but at least one. -/
def decDigitsFuel : Nat → Nat → List Byte
  | 0, n => [decDigit (n % 10)]
  | fuel + 1, n => if n < 10 then [decDigit n] else decDigitsFuel fuel (n / 10) ++ [decDigit (n % 10)]

/-- The decimal digits of `n` with no leading zeros, the single digit `'0'` for zero (R176). A number has no more
decimal digits than binary ones. -/
def decDigits (n : Nat) : List Byte := decDigitsFuel n.log2 n

/-- `n mod 10^p` as exactly `p` digits (R176). -/
def fracDigits : Nat → Nat → List Byte
  | 0, _ => []
  | p + 1, n => fracDigits p (n / 10) ++ [decDigit (n % 10)]

/-- `fix(n, p)`: the text of `n / 10^p` (R176). -/
def fix (n p : Nat) : List Byte := decDigits (n / 10 ^ p) ++ [chDot] ++ fracDigits p n

/-- `'0'..'9'`. -/
def isDigit (c : Byte) : Bool := decide (0x30 ≤ c.toNat) && decide (c.toNat ≤ 0x39)

/-- The integer written by a string of digits. -/
def digitsVal (ds : List Byte) : Nat := ds.foldl (fun acc d => 10 * acc + (d.toNat - 0x30)) 0

/-- `parse_num(f)` (R216): the value `n / 10^k` as `(n, k)`, or none outside the grammar
`digit+ ('.' digit+)?`. -/
def parseNum (f : List Byte) : Option (Nat × Nat) :=
  let ip := f.takeWhile isDigit
  if ip = [] then none
  else match f.dropWhile isDigit with
    | [] => some (digitsVal ip, 0)
    | c :: fp =>
      if c = chDot ∧ fp ≠ [] ∧ fp.all isDigit = true then some (digitsVal (ip ++ fp), fp.length) else none

/-- The text after the `k`-th comma, none if there are fewer (R215). -/
def afterCommas : Nat → List Byte → Option (List Byte)
  | 0, t => some t
  | _ + 1, [] => none
  | k + 1, c :: t => if c = chComma then afterCommas k t else afterCommas (k + 1) t

/-- `field(buf, bodyEnd, k)` (R215): the text between the `k`-th comma and the next one or `bodyEnd`; none if it is
missing. -/
def field (buf : List Byte) (bodyEnd k : Nat) : Option (List Byte) :=
  (afterCommas k (buf.take bodyEnd)).map fun t => t.takeWhile fun c => c != chComma

/-- The sentence-type tag `buf[3..6)` (R73, R103, R213). -/
def tagOf (buf : List Byte) : List Byte := (buf.drop 3).take 3

/-- The numeric tag of a message (R101). -/
def msgTag : Msg → BitVec 1
  | .fromBus _ => 0
  | .fromSerial _ => 1

/-- Payload bytes needed to read this field: up to its end (R185). -/
def PayloadField.stop (p : PayloadField) : Nat := p.off + p.bytes

/-- Heading and course: `ANGLE_LSB` radian to degrees (R7, R107). -/
def Config.angleScale (c : Config) : Scale := ⟨c.angleLsbDen, c.rad2degNum, c.rad2degDen, c.angleDecimals⟩

/-- Depth: `DEPTH_LSB` metre to metres (R7, R107). -/
def Config.depthScale (c : Config) : Scale := ⟨c.depthLsbDen, 1, 1, c.depthDecimals⟩

/-- Speed: `SOG_LSB` metre per second to knots (R7, R107). -/
def Config.knotsScale (c : Config) : Scale := ⟨c.sogLsbDen, c.ms2knNum, c.ms2knDen, c.speedDecimals⟩

/-- Speed: `SOG_LSB` metre per second to kilometres per hour (R7, R107). -/
def Config.kmhScale (c : Config) : Scale := ⟨c.sogLsbDen, c.ms2kmhNum, c.ms2kmhDen, c.speedDecimals⟩

/-- A raw value in units of the last printed decimal, exact and rounded once (R107, R177, R180): `raw / lsbDen` times
`num / den` times `10^decimals`. For an angle this is `rdiv(h * 572958, 10^7)`, with both sides times 10. -/
def Scale.printed (c : Scale) (raw : Nat) : Nat := rdiv (raw * c.num * 10 ^ c.decimals) (c.lsbDen * c.den)

/-- The printed text of a raw value (R107, R176). -/
def Scale.text (c : Scale) (raw : Nat) : List Byte := fix (c.printed raw) c.decimals

/-- Text to raw (R108, R217): the printed value `n / 10^k` divided by `num / den` and by `1 / lsbDen`, rounded once. -/
def Scale.raw (c : Scale) (n k : Nat) : Nat := rdiv (n * (c.lsbDen * c.den)) (c.num * 10 ^ k)

end Sys2Proof
end

