-- ==== Sys2Proof/Machine/Params.lean ====
section
/-! DEFINITION. The values of the configuration record (00_scope.md R7, 20_memory.md R72, 10_state.md R38, R39). -/

namespace Sys2Proof

/-- The PGN decode table (R38). -/
def pgnTable : List (BitVec 18 × Decoder) :=
  [(127250#18, .hdt), (128267#18, .dpt), (129026#18, .vtg)]

/-- The sentence encode table (R39): `HDT`, `DPT`. -/
def tagTable : List (List Byte × Encoder) :=
  [(asc ['H', 'D', 'T'], .hdt), (asc ['D', 'P', 'T'], .dpt)]

/-- The text of a raw angle, in exact arithmetic (R107, R177, D9). -/
def renderAngleExact (c : Scale) (h : Nat) : List Byte := c.text h

/-- `talker ++ "VTG," ++ C ++ ",T,,M," ++ Kn ++ ",N," ++ Kmh ++ ",K"` (R109, R180, D12). -/
def vtgBodyText (talker course knots kmh : List Byte) : List Byte :=
  talker ++ asc ['V', 'T', 'G', ','] ++ course ++ asc [',', 'T', ',', ',', 'M', ','] ++ knots ++
    asc [',', 'N', ','] ++ kmh ++ asc [',', 'K']

/-- The configuration of this block (R7). -/
def cfg : Config where
  maxLen := 82
  rcap := 81
  qcap := 32
  outCap := 82
  cntW := 32
  busTxTimeoutMs := 100
  talkerOut := asc ['H', 'E']
  sentinel := 0xFF
  csEnforce := true
  prio127250 := 2
  prio128267 := 3
  srcAddr := Config.openSrcAddr
  rad2degNum := 572958
  rad2degDen := 10000
  angleLsbDen := 10000
  depthLsbDen := 100
  sogLsbDen := 100
  ms2knNum := 194384
  ms2knDen := 100000
  ms2kmhNum := 36
  ms2kmhDen := 10
  headingField := ⟨1, 2⟩
  depthField := ⟨1, 4⟩
  courseField := ⟨2, 2⟩
  speedField := ⟨4, 2⟩
  angleDecimals := 1
  depthDecimals := 2
  speedDecimals := 2
  fieldIdx := 1
  renderAngle := renderAngleExact
  dptTail := asc [',', '0', '.', '0', ',']
  vtgBody := vtgBodyText
  decodeTable := pgnTable
  encodeTable := tagTable

/-- The handler of the PGN decode table for a frame (R102, R173). -/
def decoderOf (f : Frame) : Option Decoder := cfg.decodeTable.lookup f.pgn

/-- The handler of the sentence encode table for a buffer (R103, R213). -/
def encoderOf (buf : List Byte) : Option Encoder := cfg.encodeTable.lookup (tagOf buf)

end Sys2Proof
end

