-- ==== Sys2Proof/Machine/Flags.lean ====
section
/-! DEFINITION. The checksum engine and the transient verdicts. The block has no status flags (10_state.md R35): what
stands in their place is the verdict of CS.CHK and the outcome of the checks, used within one operation
(40_checksum.md R130 to R137, 43_sentence_encode.md R211, R212). -/

namespace Sys2Proof

/-- `xor8(s)`: the XOR of all bytes, 0x00 for the empty string (R130). -/
def xor8 (s : List Byte) : Byte := s.foldl (fun acc b => acc ^^^ b) 0#8

/-- The upper-case hexadecimal digit of a value below 16 (R132). -/
def hexDigit (v : Nat) : Byte := if v < 10 then BitVec.ofNat 8 (0x30 + v) else BitVec.ofNat 8 (0x41 + (v - 10))

/-- `hex2(b)`: high nibble first (R132, D4). -/
def hex2 (b : Byte) : List Byte := [hexDigit (b.toNat / 16), hexDigit (b.toNat % 16)]

/-- `hexval(c)` (R134, D3). -/
def hexval (c : Byte) : Option Nat :=
  if 0x30 ≤ c.toNat ∧ c.toNat ≤ 0x39 then some (c.toNat - 0x30)
  else if 0x41 ≤ c.toNat ∧ c.toNat ≤ 0x46 then some (c.toNat - 0x41 + 10)
  else if 0x61 ≤ c.toNat ∧ c.toNat ≤ 0x66 then some (c.toNat - 0x61 + 10)
  else none

/-- The index of the first `'*'`, or none (R131, R135). -/
def starIdx : List Byte → Option Nat
  | [] => none
  | c :: t => if c = chStar then some 0 else (starIdx t).map (· + 1)

/-- The body of a buffer: `buf[1..s)` with `s` the index of the first `'*'`, or `len` (R131). -/
def bodyOf (buf : List Byte) : List Byte := (buf.take ((starIdx buf).getD buf.length)).drop 1

/-- CS.GEN (R133): `'$' ++ body ++ '*' ++ hex2(xor8(body)) ++ 0x0D ++ 0x0A`. -/
def csGenBytes (body : List Byte) : List Byte := chDollar :: body ++ [chStar] ++ hex2 (xor8 body) ++ [chCR, chLF]

/-- CS.CHK (R135): the verdict and `bodyEnd`. Exactly two bytes after the `'*'` is `len = s + 3`. -/
def csChkVerdict (buf : List Byte) : Verdict × Nat :=
  match starIdx buf with
  | none => (.absent, buf.length)
  | some s =>
    match buf.drop (s + 1) with
    | [d1, d2] =>
      match hexval d1, hexval d2 with
      | some h, some l => if 16 * h + l = (xor8 (bodyOf buf)).toNat then (.isMatch, s) else (.mismatch, s)
      | _, _ => (.badFormat, s)
    | _ => (.badFormat, s)

/-- What a verdict raises under `CS_ENFORCE` (R137, R212). -/
def verdictReason (enforce : Bool) (v : Verdict) : Option MalReason :=
  match enforce, v with
  | true, .badFormat => some .badChecksumFormat
  | true, .mismatch => some .checksumMismatch
  | _, _ => none

/-- The structural and checksum checks of a sentence buffer, in order, and its `bodyEnd` when it passes (R211, R212,
R306). -/
def checkSentence (enforce : Bool) (buf : List Byte) : Except MalReason Nat :=
  if buf.head? ≠ some chDollar then .error .noDollar
  else if buf.length < 6 then .error .tooShort
  else match verdictReason enforce (csChkVerdict buf).1 with
    | some r => .error r
    | none => .ok (csChkVerdict buf).2

/-- The codes of an event: (class, reason) (R290, R296, R297). -/
def Event.codes : Event → Nat × Nat
  | .unrecognizedIdentifier .pgn => (1, 1)
  | .unrecognizedIdentifier .tag => (1, 2)
  | .malformedInput .noDollar => (2, 1)
  | .malformedInput .tooShort => (2, 2)
  | .malformedInput .badChecksumFormat => (2, 3)
  | .malformedInput .checksumMismatch => (2, 4)
  | .malformedInput .fieldMissing => (2, 5)
  | .malformedInput .fieldEmpty => (2, 6)
  | .malformedInput .notNumeric => (2, 7)
  | .malformedInput .outOfRange => (2, 8)
  | .malformedInput .frameShort => (2, 9)
  | .malformedInput .frameInvariant => (2, 10)
  | .malformedInput .outputOverflow => (2, 11)
  | .backpressure .bus => (3, 1)
  | .backpressure .ser => (3, 2)
  | .transportFailure .timeout => (4, 1)
  | .transportFailure .error => (4, 2)

/-- The saturating increment of `bp_count` (R36, R252). -/
def satInc (c : BitVec 32) : BitVec 32 := BitVec.ofNat 32 (min (c.toNat + 1) (2 ^ cfg.cntW - 1))

end Sys2Proof
end

