-- ==== Sys2Proof/WellFormed.lean ====
section
/-! DEFINITION. Which operations are well formed: the operands are those the operation's rule and its row of the opcode
table admit. -/

namespace Sys2Proof

/-- The operand of a decoder: a frame that passed R172 and whose PGN selects that decoder (R102). -/
def wfDecode (d : Option Decoder) (f : Frame) : Bool := f.invariantOk && decide (decoderOf f = d)

/-- The operand of an encoder: a buffer that passed R211 and R212 with this `bodyEnd`, and whose tag selects that
encoder (R103, R221, R222). -/
def wfEncode (e : Option Encoder) (buf : List Byte) (bodyEnd : Nat) : Bool :=
  (match checkSentence cfg.csEnforce buf with
    | .ok n => n == bodyEnd
    | .error _ => false) && decide (encoderOf buf = e)

/-- Well-formedness of an operation. -/
def Instr.wf : Instr → Bool
  | .rxCr => true
  | .rxLf => true
  | .rxData b => b != chCR && b != chLF
  | .brxEnq _ => true
  | .conDeq => true
  | .dispatchFromBus => true
  | .dispatchFromSerial _ => true
  | .decHdt f => wfDecode (some .hdt) f
  | .decDpt f => wfDecode (some .dpt) f
  | .decVtg f => wfDecode (some .vtg) f
  | .decUnrec f => wfDecode none f
  | .encHdt buf n => wfEncode (some .hdt) buf n
  | .encDpt buf n => wfEncode (some .dpt) buf n
  | .encUnrec buf => wfEncode none buf (csChkVerdict buf).2
  | .csGen _ => true
  | .csChk buf => !buf.isEmpty
  | .reset => true

end Sys2Proof
end

