-- ==== Sys2Proof/Decode.lean ====
section
/-! DEFINITION. From the encoded form of an operation to the operation, and back (30_encoding.md R91 to R104). Decoding
is total: it answers an operation or rejects by name. -/

namespace Sys2Proof

/-- BYTE class (R91): CR and LF by their values, every other byte is DATA. -/
def decodeByte (b : Byte) : Instr :=
  if b = 0x0D#8 then .rxCr else if b = 0x0A#8 then .rxLf else .rxData b

/-- MSG tag (R101, R257): 0 is FromBus, 1 is FromSerial. -/
def decodeMsg (tag : BitVec 1) (r : BusAnswer) : Instr :=
  if tag = 0#1 then .dispatchFromBus else .dispatchFromSerial r

/-- CANID (R102): the handler of a frame that passed the invariant check (R172). -/
def decodeCanid (f : Frame) : Except DecodeError Instr :=
  if f.invariantOk then
    .ok (match decoderOf f with
      | some .hdt => .decHdt f
      | some .dpt => .decDpt f
      | some .vtg => .decVtg f
      | none => .decUnrec f)
  else .error .frameInvariant

/-- TAG3 (R103): the handler of a sentence buffer that passed the checks before the lookup (R211, R212). -/
def decodeTag3 (buf : List Byte) : Except DecodeError Instr :=
  match checkSentence cfg.csEnforce buf with
  | .ok n =>
    .ok (match encoderOf buf with
      | some .hdt => .encHdt buf n
      | some .dpt => .encDpt buf n
      | none => .encUnrec buf)
  | .error _ => .error .sentenceChecks

/-- The operation an encoded form selects (R91, R101 to R104). -/
def decode : OpWord → Except DecodeError Instr
  | .byte b => .ok (decodeByte b)
  | .frame f => .ok (.brxEnq f)
  | .state => .ok .conDeq
  | .msg tag r => .ok (decodeMsg tag r)
  | .canid f => decodeCanid f
  | .tag3 buf => decodeTag3 buf
  | .gen body => .ok (.csGen body)
  | .chk buf => if buf = [] then .error .emptyBuffer else .ok (.csChk buf)
  | .reset => .ok .reset

/-- The encoded form of an operation, from the rows of the opcode table. -/
def encode : Instr → OpWord
  | .rxCr => .byte 0x0D#8
  | .rxLf => .byte 0x0A#8
  | .rxData b => .byte b
  | .brxEnq f => .frame f
  | .conDeq => .state
  | .dispatchFromBus => .msg 0#1 .ok
  | .dispatchFromSerial r => .msg 1#1 r
  | .decHdt f => .canid f
  | .decDpt f => .canid f
  | .decVtg f => .canid f
  | .decUnrec f => .canid f
  | .encHdt buf _ => .tag3 buf
  | .encDpt buf _ => .tag3 buf
  | .encUnrec buf => .tag3 buf
  | .csGen body => .gen body
  | .csChk buf => .chk buf
  | .reset => .reset

/-- The frame a CANID table word stands for: the 29 bits, the marker set, an 8-byte payload of zeros (log entry 7). -/
def wordFrame (w : Nat) : Frame :=
  { id := BitVec.ofNat 29 w, ide := true, dlc := 8#4, data := Vector.replicate 8 0#8 }

/-- The sentence buffer a TAG3 table word stands for: `'$'`, a talker of zero bytes, the three tag bytes (R103), and the
field `0` (log entry 7). -/
def wordSentence (w : Nat) : List Byte :=
  [chDollar, 0#8, 0#8, BitVec.ofNat 8 (w / 2 ^ 16), BitVec.ofNat 8 (w / 2 ^ 8), BitVec.ofNat 8 w, chComma, 0x30#8]

/-- The encoded form a word of the opcode table stands for. A word of one byte is a MSG tag (rows with fixed bits come
first) or a BYTE, of three bytes a TAG3, of four a CANID; no row has another width (log entry 7). -/
def tableWord (nbits w : Nat) : Option OpWord :=
  if nbits = 8 then
    some (if w = 0 then .msg 0#1 .ok else if w = 1 then .msg 1#1 .ok else .byte (BitVec.ofNat 8 w))
  else if nbits = 24 then some (.tag3 (wordSentence w))
  else if nbits = 32 then some (.canid (wordFrame w))
  else none

/-- The operation the decoder reads from a word of the opcode table. -/
def decodeTableWord (nbits w : Nat) : Option Instr :=
  (tableWord nbits w).bind fun x => (decode x).toOption

end Sys2Proof
end

