-- ==== Sys2Proof/Machine/State.lean ====
section
/-! DEFINITION. The state of the block (10_state.md R20 to R44), its reset value (R43), and why a step can stop. -/

namespace Sys2Proof.Machine

/-- The state. Each byte space and the queue is held as the list of its live entries, so that a stale byte has no value
(R75, 93 U1; log entry 5). -/
structure State where
  /-- `rbuf[0..rcur)`, the pending line (R21, R22). -/
  rbuf : List Byte
  /-- The queued messages, oldest first: `qmem[(qhead + k) mod 32]` for `k < qcount` (R23, R24). -/
  queue : List Msg
  /-- `qhead` (R24, R33). -/
  qhead : Fin 32
  /-- `bp_count` (R36). -/
  bpCount : BitVec 32
  /-- `cur`, none while `cphase` = IDLE (R25, R44 f). -/
  cur : Option Msg
  /-- `obuf[0..olen)`, the last decoded sentence (R26). -/
  obuf : List Byte
  /-- `ser_tx`, oldest first (R28). -/
  serTx : List Byte
  /-- `bus_tx`, oldest first (R28). -/
  busTx : List (Frame × BusAnswer)
  /-- `diag`, oldest first (R28). -/
  diag : List Event
  /-- The model's own: the lines ENV presents, next first (R117; log entry 2). -/
  inputs : List Token
  /-- The model's own: what the last sub-operation called by itself returned, none if it raised (R35; log entry 9). -/
  ret : Option Ret
  /-- The model's own: how many free values have been drawn (log entry 8). -/
  freeCtr : Nat
deriving DecidableEq, Repr

/-- The phase of the consumer (R34). -/
inductive CPhase where
  | idle
  | busy
deriving DecidableEq, Repr

/-- `rcur` (R22). -/
def State.rcur (s : State) : Nat := s.rbuf.length

/-- `qcount` (R24). -/
def State.qcount (s : State) : Nat := s.queue.length

/-- Slot `i` of `qmem`: the message at distance `k` from `qhead` stands in slot `(qhead + k) mod 32` (R24); a free slot
holds nothing. -/
def State.qmem (s : State) (i : Fin 32) : Option Msg := s.queue[(i - s.qhead).val]?

/-- `cphase`: BUSY exactly when `cur` holds a message (R44 f). -/
def State.cphase (s : State) : CPhase := if s.cur.isSome then .busy else .idle

/-- `olen` (R26). -/
def State.olen (s : State) : Nat := s.obuf.length

/-- The block has no fault: "No condition inside the translation core is fatal" (R295). No constructor, so no step can
answer one. -/
inductive Fault where
deriving DecidableEq, Repr

/-- Why a step is refused. -/
inductive Refusal where
  /-- Raised by an arm of `exec` whose operation has no meaning yet. No arm raises it. Safe: the model says nothing. -/
  | notModelled (mnemonic : String)
  /-- Raised by `step` if the decoder rejected the next input. No input line is rejected, so no step raises it. Safe:
  the model says nothing. -/
  | undecodable (e : DecodeError)
deriving DecidableEq, Repr

/-- The state after reset (R43): every cursor, count and trace at zero or empty, the consumer IDLE, no live byte in any
buffer. The model's own fields: no input pending, nothing returned, no free value drawn (log entries 2, 8, 9). -/
def State.reset : State where
  rbuf := []
  queue := []
  qhead := 0
  bpCount := 0#32
  cur := none
  obuf := []
  serTx := []
  busTx := []
  diag := []
  inputs := []
  ret := none
  freeCtr := 0

end Sys2Proof.Machine
end

