-- ==== Sys2Proof/Machine/Ops.lean ====
section
/-! DEFINITION. The operations every meaning is built from: raising an error and ending the operation
(60_exceptions.md R300), the queue (44_queue_dispatch.md R252, R255), the outputs (R263, R265), the decoder's buffer
(42_frame_decode.md R182), and fetching what ENV presents (30_encoding.md R117). -/

namespace Sys2Proof.Machine

/-- `raise` (R12, R300): append the event to `diag` and change nothing else. The message in hand is dropped by the
operation that holds it: an enqueue forgets its operand, and `endExec` kills `cur` whatever the outcome (log entry 10). -/
def raise (e : Event) (s : State) : State := { s with diag := s.diag ++ [e] }

/-- The end of CON.EXEC, whatever the outcome (R257, R300, R302): `cphase` to IDLE, `cur` dead. The agent then takes its
next operation as after an Ok; there is no other return from an error. -/
def endExec (s : State) : State := { s with cur := none }

/-- `enqueue(m, src)` (R252): non-blocking, drop on full. -/
def enqueue (m : Msg) (src : Producer) (s : State) : State :=
  if s.queue.length < cfg.qcap then { s with queue := s.queue ++ [m] }
  else raise (.backpressure src) { s with bpCount := satInc s.bpCount }

/-- The dequeue of CON.DEQ (R255): enabled exactly when `cphase` = IDLE and `qcount > 0`. Where it is not enabled there
is no step (R256): nothing changes (log entry 3). -/
def dequeue (s : State) : State :=
  match s.cur, s.queue with
  | none, m :: rest => { s with cur := some m, queue := rest, qhead := s.qhead + 1 }
  | _, _ => s

/-- `emit_serial(s)` (R265): infallible, the whole sentence at once. -/
def emitSerial (out : List Byte) (s : State) : State := { s with serTx := s.serTx ++ out }

/-- What a failed submit raises (R259, R263). -/
def submitFailure : BusAnswer → Option TxReason
  | .ok => none
  | .timeout => some .timeout
  | .error => some .error

/-- `submit_bus(f) -> r` and the raise on `r != Ok` (R259, R263): the frame stays in `bus_tx` with its answer. -/
def submitBus (f : Frame) (r : BusAnswer) (s : State) : State :=
  let s1 := { s with busTx := s.busTx ++ [(f, r)] }
  match submitFailure r with
  | none => s1
  | some e => raise (.transportFailure e) s1

/-- `obuf` after OUTPUT_OVERFLOW (R182): unspecified content, `olen` unchanged (log entry 8). -/
def scrambleObuf (s : State) : State :=
  { s with
    obuf := (List.range s.obuf.length).map (Config.freeByte s.freeCtr)
    freeCtr := s.freeCtr + 1 }

/-- Storing a decoder's result (R182): the new state, and the sentence unless it raised OUTPUT_OVERFLOW. -/
def storeOut (out : List Byte) (s : State) : State × Option (List Byte) :=
  if cfg.outCap < out.length then (raise (.malformedInput .outputOverflow) (scrambleObuf s), none)
  else ({ s with obuf := out }, some out)

/-- A sub-operation that raised (R300): the event, and no value for the caller. -/
def raised {α : Type} (e : Event) (s : State) : State × Option α := (raise e s, none)

/-- A sub-operation called by itself leaves what it returned in `ret` (log entry 9). -/
def returning {α : Type} (wrap : α → Ret) (p : State × Option α) : State := { p.1 with ret := p.2.map wrap }

/-- The encoded operation an input line presents (R117): for `exec`, the tag of the message in `cur` (R257); none where
CON.EXEC is not enabled, `cphase` = IDLE. -/
def fetchWord (cur : Option Msg) : Token → Option OpWord
  | .rx b => some (.byte b)
  | .can f => some (.frame f)
  | .deq => some .state
  | .exec r => cur.map fun m => .msg (msgTag m) r
  | .reset => some .reset

/-- What ENV must present for a word of the opcode table to run next: the input line, and the message in `cur` where the
operation acts on it (log entry 7). -/
def presentWord (x : OpWord) (s : State) : State :=
  match x with
  | .byte b => { s with inputs := .rx b :: s.inputs }
  | .msg tag r =>
    { s with
      inputs := .exec r :: s.inputs
      cur := some (if tag = 0#1 then .fromBus (wordFrame 0) else .fromSerial (wordSentence 0)) }
  | .canid f => { s with inputs := .exec .ok :: s.inputs, cur := some (.fromBus f) }
  | .tag3 buf => { s with inputs := .exec .ok :: s.inputs, cur := some (.fromSerial buf) }
  | .frame f => { s with inputs := .can f :: s.inputs }
  | .state => { s with inputs := .deq :: s.inputs }
  | .gen _ => s
  | .chk _ => s
  | .reset => { s with inputs := .reset :: s.inputs }

end Sys2Proof.Machine
end

