-- ==== Sys2Proof/Machine/Checksum.lean ====
section
/-! DEFINITION. The checksum sub-operations CS.GEN and CS.CHK (40_checksum.md R133, R135). They write no state of the
block; called by themselves they leave their result in `ret`. -/

namespace Sys2Proof.Machine

/-- CS.GEN (R133). -/
def execCsGen (body : List Byte) (s : State) : Host.Outcome State Fault Refusal :=
  .next (returning .sentence (s, some (csGenBytes body)))

/-- CS.CHK (R135). -/
def execCsChk (buf : List Byte) (s : State) : Host.Outcome State Fault Refusal :=
  .next (returning (fun v => .verdict v.1 v.2) (s, some (csChkVerdict buf)))

end Sys2Proof.Machine
end

