-- ==== Sys2Proof/Machine/FrameDecode.lean ====
section
/-! DEFINITION. The frame parser and the PGN decoders DEC.HDT, DEC.DPT, DEC.VTG, DEC.UNREC (42_frame_decode.md R170 to
R185). -/

namespace Sys2Proof.Machine

/-- The raw value of a payload field (R72, R185). -/
def readField (p : PayloadField) (h : p.off + p.bytes ≤ 8) (f : Frame) : Nat := memRead f.data p.off p.bytes h

/-- The raw heading of a 127250 payload, u16 (R72, R178). -/
def rawHeading (f : Frame) : Nat := readField cfg.headingField (by decide) f

/-- The raw depth of a 128267 payload, u32 (R72, R179). -/
def rawDepth (f : Frame) : Nat := readField cfg.depthField (by decide) f

/-- The raw course of a 129026 payload, u16 (R72, R180). -/
def rawCourse (f : Frame) : Nat := readField cfg.courseField (by decide) f

/-- The raw speed of a 129026 payload, u16 (R72, R180). -/
def rawSpeed (f : Frame) : Nat := readField cfg.speedField (by decide) f

/-- The `HDT` body of a raw heading (R109, R178). -/
def hdtBody (h : Nat) : List Byte :=
  cfg.talkerOut ++ asc ['H', 'D', 'T', ','] ++ cfg.renderAngle cfg.angleScale h ++ asc [',', 'T']

/-- The `DPT` body of a raw depth (R109, R179). -/
def dptBody (d : Nat) : List Byte := cfg.talkerOut ++ asc ['D', 'P', 'T', ','] ++ cfg.depthScale.text d ++ cfg.dptTail

/-- The `VTG` body of a raw course and a raw speed (R109, R180). -/
def vtgBody (c s : Nat) : List Byte :=
  cfg.vtgBody cfg.talkerOut (cfg.renderAngle cfg.angleScale c) (cfg.knotsScale.text s) (cfg.kmhScale.text s)

/-- DEC.HDT (R178): the sentence, or FRAME_SHORT (R185). -/
def decHdt (f : Frame) (s : State) : State × Option (List Byte) :=
  if f.dlc.toNat < cfg.headingField.stop then raised (.malformedInput .frameShort) s
  else storeOut (csGenBytes (hdtBody (rawHeading f))) s

/-- DEC.DPT (R179): the sentence, or FRAME_SHORT (R185). -/
def decDpt (f : Frame) (s : State) : State × Option (List Byte) :=
  if f.dlc.toNat < cfg.depthField.stop then raised (.malformedInput .frameShort) s
  else storeOut (csGenBytes (dptBody (rawDepth f))) s

/-- DEC.VTG (R180): the sentence, or FRAME_SHORT (R185). -/
def decVtg (f : Frame) (s : State) : State × Option (List Byte) :=
  if f.dlc.toNat < max cfg.courseField.stop cfg.speedField.stop then raised (.malformedInput .frameShort) s
  else storeOut (csGenBytes (vtgBody (rawCourse f) (rawSpeed f))) s

/-- DEC.UNREC (R174). -/
def decUnrec (_ : Frame) (s : State) : State × Option (List Byte) := raised (.unrecognizedIdentifier .pgn) s

/-- The lookup and the decoder it selects (R173). -/
def decodeFrame (f : Frame) (s : State) : State × Option (List Byte) :=
  match decoderOf f with
  | some .hdt => decHdt f s
  | some .dpt => decDpt f s
  | some .vtg => decVtg f s
  | none => decUnrec f s

/-- DEC.HDT called by itself (R178). -/
def execDecHdt (f : Frame) (s : State) : Host.Outcome State Fault Refusal := .next (returning .sentence (decHdt f s))

/-- DEC.DPT called by itself (R179). -/
def execDecDpt (f : Frame) (s : State) : Host.Outcome State Fault Refusal := .next (returning .sentence (decDpt f s))

/-- DEC.VTG called by itself (R180). -/
def execDecVtg (f : Frame) (s : State) : Host.Outcome State Fault Refusal := .next (returning .sentence (decVtg f s))

/-- DEC.UNREC called by itself (R174). -/
def execDecUnrec (f : Frame) (s : State) : Host.Outcome State Fault Refusal :=
  .next (returning .sentence (decUnrec f s))

end Sys2Proof.Machine
end

