-- ==== Sys2Proof/Machine/SentenceEncode.lean ====
section
/-! DEFINITION. The sentence encoders ENC.HDT, ENC.DPT, ENC.UNREC (43_sentence_encode.md R210 to R225). -/

namespace Sys2Proof.Machine

/-- The number in the field an encoder reads, as `(n, k)` for `n / 10^k` (R215, R216). -/
def numField (buf : List Byte) (bodyEnd : Nat) : Except MalReason (Nat × Nat) :=
  match field buf bodyEnd cfg.fieldIdx with
  | none => .error .fieldMissing
  | some f =>
    if f = [] then .error .fieldEmpty
    else match parseNum f with
      | none => .error .notNumeric
      | some v => .ok v

/-- The raw value of the field, checked against the width of the payload field (R217, R218). -/
def rawField (c : Scale) (p : PayloadField) (buf : List Byte) (bodyEnd : Nat) : Except MalReason Nat :=
  match numField buf bodyEnd with
  | .error r => .error r
  | .ok (n, k) => if 2 ^ (8 * p.bytes) - 1 < c.raw n k then .error .outOfRange else .ok (c.raw n k)

/-- The payload before its populated field is written: 8 sentinel bytes (R220). -/
def blankPayload : Vector Byte 8 := Vector.replicate 8 cfg.sentinel

/-- The payload with one populated field (R72, R220). -/
def fieldPayload (p : PayloadField) (h : p.off + p.bytes ≤ 8) (raw : Nat) : Vector Byte 8 :=
  memWrite blankPayload p.off p.bytes raw h

/-- The frame of a raw heading (R219 to R221). -/
def hdtFrame (raw : Nat) : Frame where
  id := composeId cfg.prio127250 127250#18 cfg.srcAddr
  ide := true
  dlc := 8#4
  data := fieldPayload cfg.headingField (by decide) raw

/-- The frame of a raw depth (R219, R220, R222). -/
def dptFrame (raw : Nat) : Frame where
  id := composeId cfg.prio128267 128267#18 cfg.srcAddr
  ide := true
  dlc := 8#4
  data := fieldPayload cfg.depthField (by decide) raw

/-- The result of an encoder: its frame, or the error its field raises. -/
def encResult (build : Nat → Frame) (raw : Except MalReason Nat) (s : State) : State × Option Frame :=
  match raw with
  | .error r => raised (.malformedInput r) s
  | .ok v => (s, some (build v))

/-- ENC.HDT (R221). -/
def encHdt (buf : List Byte) (bodyEnd : Nat) (s : State) : State × Option Frame :=
  encResult hdtFrame (rawField cfg.angleScale cfg.headingField buf bodyEnd) s

/-- ENC.DPT (R222). -/
def encDpt (buf : List Byte) (bodyEnd : Nat) (s : State) : State × Option Frame :=
  encResult dptFrame (rawField cfg.depthScale cfg.depthField buf bodyEnd) s

/-- ENC.UNREC (R214). -/
def encUnrec (_ : List Byte) (s : State) : State × Option Frame := raised (.unrecognizedIdentifier .tag) s

/-- The checks, the lookup and the encoder it selects (R211 to R213), under a given `CS_ENFORCE`. -/
def encodeSentence (enforce : Bool) (buf : List Byte) (s : State) : State × Option Frame :=
  match checkSentence enforce buf with
  | .error r => raised (.malformedInput r) s
  | .ok bodyEnd =>
    match encoderOf buf with
    | some .hdt => encHdt buf bodyEnd s
    | some .dpt => encDpt buf bodyEnd s
    | none => encUnrec buf s

/-- ENC.HDT called by itself (R221). -/
def execEncHdt (buf : List Byte) (bodyEnd : Nat) (s : State) : Host.Outcome State Fault Refusal :=
  .next (returning .frame (encHdt buf bodyEnd s))

/-- ENC.DPT called by itself (R222). -/
def execEncDpt (buf : List Byte) (bodyEnd : Nat) (s : State) : Host.Outcome State Fault Refusal :=
  .next (returning .frame (encDpt buf bodyEnd s))

/-- ENC.UNREC called by itself (R214). -/
def execEncUnrec (buf : List Byte) (s : State) : Host.Outcome State Fault Refusal :=
  .next (returning .frame (encUnrec buf s))

end Sys2Proof.Machine
end

