-- ==== Sys2Proof/Machine/Queue.lean ====
section
/-! DEFINITION. The bus producer, the consumer's dequeue and its two dispatch arms (44_queue_dispatch.md R250 to R271).
An arm is the whole of CON.EXEC for its message: the translation, the output, and the return to IDLE (R257). -/

namespace Sys2Proof.Machine

/-- BRX.ENQ (R253): every frame is queued, unchecked. -/
def execBrxEnq (f : Frame) (s : State) : Host.Outcome State Fault Refusal := .next (enqueue (.fromBus f) .bus s)

/-- CON.DEQ (R255). -/
def execConDeq (s : State) : Host.Outcome State Fault Refusal := .next (dequeue s)

/-- The FromBus arm (R258): invariant check, decode, write the sentence. -/
def dispatchFromBus (f : Frame) (s : State) : State :=
  if f.invariantOk then
    match decodeFrame f s with
    | (s1, some out) => emitSerial out s1
    | (s1, none) => s1
  else raise (.malformedInput .frameInvariant) s

/-- The FromSerial arm (R259): checks, encode, submit the frame. -/
def dispatchFromSerial (enforce : Bool) (buf : List Byte) (r : BusAnswer) (s : State) : State :=
  match encodeSentence enforce buf s with
  | (s1, some f) => submitBus f r s1
  | (s1, none) => s1

/-- DISPATCH.FROMBUS (R257, R258), enabled when `cur` holds a FromBus message; elsewhere there is no step and nothing
changes (log entry 3). -/
def execDispatchFromBus (s : State) : Host.Outcome State Fault Refusal :=
  .next
    (match s.cur with
      | some (.fromBus f) => endExec (dispatchFromBus f s)
      | _ => s)

/-- DISPATCH.FROMSERIAL (R257, R259), enabled when `cur` holds a FromSerial message; elsewhere there is no step and
nothing changes (log entry 3). -/
def execDispatchFromSerial (r : BusAnswer) (s : State) : Host.Outcome State Fault Refusal :=
  .next
    (match s.cur with
      | some (.fromSerial buf) => endExec (dispatchFromSerial cfg.csEnforce buf r s)
      | _ => s)

end Sys2Proof.Machine
end

