-- ==== Sys2Proof/Machine/Reassembler.lean ====
section
/-! DEFINITION. The sentence reassembler: RX.CR, RX.LF, RX.DATA (41_reassembler.md R150 to R158). -/

namespace Sys2Proof.Machine

/-- RX.CR (R151): "`\r` is discarded unconditionally". -/
def execRxCr (s : State) : Host.Outcome State Fault Refusal := .next s

/-- RX.LF (R152): emit the pending line if it is non-empty and starts with `'$'`; the cursor resets in either case. -/
def execRxLf (s : State) : Host.Outcome State Fault Refusal :=
  .next
    (if s.rbuf.head? = some chDollar then { enqueue (.fromSerial s.rbuf) .ser s with rbuf := [] }
      else { s with rbuf := [] })

/-- RX.DATA (R154): append if the buffer has room, else drop the byte. -/
def execRxData (b : Byte) (s : State) : Host.Outcome State Fault Refusal :=
  .next (if s.rbuf.length < cfg.rcap then { s with rbuf := s.rbuf ++ [b] } else s)

end Sys2Proof.Machine
end

