-- ==== Sys2Proof/Machine/Reset.lean ====
section
/-! DEFINITION. RESET (70_reset_and_hazards.md R330). -/

namespace Sys2Proof.Machine

/-- RESET (R330): all of the block's state to its reset value. What ENV has still to present is not the block's state
and stays (R42; log entry 2); so does the count of free values drawn (log entry 8). -/
def execReset (s : State) : Host.Outcome State Fault Refusal :=
  .next { State.reset with inputs := s.inputs, freeCtr := s.freeCtr }

end Sys2Proof.Machine
end

