-- ==== Sys2Proof/Machine/Dispatch.lean ====
section
/-! DEFINITION. One arm per operation of the opcode table. -/

namespace Sys2Proof.Machine

/-- The effect of one operation. -/
def exec (i : Instr) (s : State) : Host.Outcome State Fault Refusal :=
  match i with
  | .rxCr => Sys2Proof.Machine.execRxCr s
  | .rxLf => Sys2Proof.Machine.execRxLf s
  | .rxData b => Sys2Proof.Machine.execRxData b s
  | .brxEnq f => Sys2Proof.Machine.execBrxEnq f s
  | .conDeq => Sys2Proof.Machine.execConDeq s
  | .dispatchFromBus => Sys2Proof.Machine.execDispatchFromBus s
  | .dispatchFromSerial r => Sys2Proof.Machine.execDispatchFromSerial r s
  | .decHdt f => Sys2Proof.Machine.execDecHdt f s
  | .decDpt f => Sys2Proof.Machine.execDecDpt f s
  | .decVtg f => Sys2Proof.Machine.execDecVtg f s
  | .decUnrec f => Sys2Proof.Machine.execDecUnrec f s
  | .encHdt buf bodyEnd => Sys2Proof.Machine.execEncHdt buf bodyEnd s
  | .encDpt buf bodyEnd => Sys2Proof.Machine.execEncDpt buf bodyEnd s
  | .encUnrec buf => Sys2Proof.Machine.execEncUnrec buf s
  | .csGen body => Sys2Proof.Machine.execCsGen body s
  | .csChk buf => Sys2Proof.Machine.execCsChk buf s
  | .reset => Sys2Proof.Machine.execReset s

end Sys2Proof.Machine
end

