-- ==== Sys2Proof/Machine/Step.lean ====
section
/-! DEFINITION. One step: ENV's next input line is taken, the operation it selects is decoded and run (00_scope.md R8,
R9, 30_encoding.md R117). -/

namespace Sys2Proof.Machine

/-- One step (log entries 2, 3). With no line left every agent waits (R256, R330). A line that enables no operation
(`exec` while `cphase` = IDLE, R257) passes with nothing changed. -/
def step (s : State) : Host.Outcome State Fault Refusal :=
  match s.inputs with
  | [] => .next s
  | t :: rest =>
    match fetchWord s.cur t with
    | none => .next { s with inputs := rest }
    | some x =>
      match decode x with
      | .ok i => exec i { s with inputs := rest }
      | .error e => .refused (.undecodable e)

/-- The state with a word of the opcode table presented as ENV's next input (log entry 7). -/
def State.withFetchWord (s : State) (nbits w : Nat) : State :=
  match tableWord nbits w with
  | some x => presentWord x s
  | none => s

end Sys2Proof.Machine
end

