-- ==== Sys2Proof/Safety.lean ====
section
/-! DEFINITION. What claims are stated in: the invariant of the state (10_state.md R44), runs, and the pseudo-lines of the
stimulus notation (30_encoding.md R118). -/

namespace Sys2Proof.Machine

/-- No CR and no LF (R44 c, d). -/
def lineOk (l : List Byte) : Bool := l.all fun b => b != chCR && b != chLF

/-- A queued sentence buffer: `1 <= len <= 81`, first byte `'$'`, no CR or LF (R44 d, R94, R153). -/
def bufOk (buf : List Byte) : Bool := buf.head? == some chDollar && decide (buf.length ≤ cfg.rcap) && lineOk buf

/-- A message as the producers make it: any frame, or a sentence buffer of the reassembler (R44 d, e). -/
def msgOk : Msg → Bool
  | .fromBus _ => true
  | .fromSerial buf => bufOk buf

/-- The spaces are within their capacities (R60, R61; R44 a, b, g). Each is held by its live entries only, so this is the
canonical form: equal contents are equal lists. -/
def Memory.wf (s : State) : Bool :=
  decide (s.rbuf.length ≤ cfg.rcap) && decide (s.queue.length ≤ cfg.qcap) && decide (s.obuf.length ≤ cfg.outCap)

/-- The invariant of the state (R44 a to g). -/
def State.inv (s : State) : Bool :=
  Memory.wf s && lineOk s.rbuf && s.queue.all msgOk && s.cur.all msgOk

/-- `n` steps, stopping at the first fault or refusal. -/
def run : Nat → State → Host.Outcome State Fault Refusal
  | 0, s => .next s
  | n + 1, s =>
    match step s with
    | .next t => run n t
    | .fault e => .fault e
    | .refused e => .refused e

/-- `rxs "<text>"`: one `rx` line per byte (R118). -/
def rxLines (bytes : List Byte) : List Token := bytes.map Token.rx

/-- `step <r>`: `deq` then `exec <r>` (R118). -/
def stepLines (r : BusAnswer) : List Token := [.deq, .exec r]

/-- `n` repetitions of `step`: what `drain` expands to (R118). -/
def drainLines : Nat → List Token
  | 0 => []
  | n + 1 => stepLines .ok ++ drainLines n

/-- The sentence a sub-operation returned; none returned is no byte. -/
def sentenceOf : Option Ret → List Byte
  | some (.sentence out) => out
  | _ => []

/-- The frame a sub-operation returned. -/
def frameOf : Option Ret → Option Frame
  | some (.frame f) => some f
  | _ => none

/-- What the submit of an encoder's frame adds to `bus_tx` (R259, R263). -/
def submitted (f : Option Frame) (r : BusAnswer) : List (Frame × BusAnswer) :=
  match f with
  | some g => [(g, r)]
  | none => []

/-- What the submit of an encoder's frame adds to `diag` (R259, R263). -/
def submitEvents (f : Option Frame) (r : BusAnswer) : List Event :=
  match f, r with
  | some _, .timeout => [.transportFailure .timeout]
  | some _, .error => [.transportFailure .error]
  | _, _ => []

/-- The message the next step puts in the queue, by the producers' rules (R152, R252, R253). -/
def acceptedBy (s : State) : List Msg :=
  match s.inputs with
  | .can f :: _ => if s.queue.length < 32 then [.fromBus f] else []
  | .rx b :: _ =>
    if b = chLF ∧ s.rbuf.head? = some chDollar ∧ s.queue.length < 32 then [.fromSerial s.rbuf] else []
  | _ => []

/-- The message the next step takes from the queue (R255). -/
def takenBy (s : State) : List Msg :=
  match s.inputs, s.cur with
  | .deq :: _, none => s.queue.take 1
  | _, _ => []

/-- The messages `n` steps put in the queue, in order. -/
def runAccepted : Nat → State → List Msg
  | 0, _ => []
  | n + 1, s =>
    acceptedBy s ++
      match step s with
      | .next t => runAccepted n t
      | _ => []

/-- The messages `n` steps take from the queue, in order. -/
def runTaken : Nat → State → List Msg
  | 0, _ => []
  | n + 1, s =>
    takenBy s ++
      match step s with
      | .next t => runTaken n t
      | _ => []

/-- A frame as the encoders build it (R219, R220): marked extended, eight bytes, the configured source address, the PGN
and priority of one of the two encoders, and every byte outside the populated field at the sentinel. -/
def encodedFrame (f : Frame) : Prop :=
  f.ide = true ∧ f.dlc = 8#4 ∧ f.sa = cfg.srcAddr ∧
    f.data[0] = 0xFF#8 ∧ f.data[5] = 0xFF#8 ∧ f.data[6] = 0xFF#8 ∧ f.data[7] = 0xFF#8 ∧
    ((f.pgn = 127250#18 ∧ f.prio = 2#3 ∧ f.data[3] = 0xFF#8 ∧ f.data[4] = 0xFF#8) ∨
      (f.pgn = 128267#18 ∧ f.prio = 3#3))

/-- The text of a generated body: no `'$'`, `'*'`, CR or LF (R133). -/
def bodyOk (body : List Byte) : Bool :=
  body.all fun b => b != chDollar && b != chStar && b != chCR && b != chLF

/-- A generated sentence (R109, R133, R184): a clean body, sealed, at most 82 bytes on the wire. -/
def generated (out : List Byte) : Prop := ∃ body, bodyOk body = true ∧ out = csGenBytes body ∧ out.length ≤ 82

end Sys2Proof.Machine
end

