-- ==== Sys2Proof/Certificates/Slice0/Obligations.lean ====
section
/-! DEFINITION. The statements for the provers. Where a docstring names a decision D<n>, the clause rests on the spec's own
choice (spec/92_eei_decisions.md); where it names a log entry, on the model's. -/

open Sys2Proof Sys2Proof.Machine

/-! ### The sentence reassembler (41_reassembler.md) -/

/-- RX.CR (R151): every CR is discarded, nothing changes. -/
def Obligations.RxCrLeavesEverythingUnchanged : Prop := ∀ s : State, exec .rxCr s = .next s

/-- RX.LF (R152; the saturation D23 and the event per drop D29 are the spec's own): a non-empty line starting with `'$'` is emitted, or lost to Backpressure if the queue is full; any
other line is discarded with no event; the cursor resets in every case, and nothing else changes. -/
def Obligations.RxLfEmitsOrDiscardsThePendingLine : Prop :=
  ∀ s : State,
    (s.rbuf.head? = some chDollar → s.queue.length < 32 →
      exec .rxLf s = .next { s with rbuf := [], queue := s.queue ++ [.fromSerial s.rbuf] }) ∧
    (s.rbuf.head? = some chDollar → 32 ≤ s.queue.length →
      exec .rxLf s = .next
        { s with
          rbuf := []
          bpCount := BitVec.ofNat 32 (min (s.bpCount.toNat + 1) (2 ^ 32 - 1))
          diag := s.diag ++ [.backpressure .ser] }) ∧
    (s.rbuf.head? ≠ some chDollar → exec .rxLf s = .next { s with rbuf := [] })

/-- RX.DATA (R154): the byte is appended while fewer than 81 are held, else dropped with no event. -/
def Obligations.RxDataAppendsWhileThereIsRoom : Prop :=
  ∀ (s : State) (b : Byte),
    (s.rbuf.length < 81 → exec (.rxData b) s = .next { s with rbuf := s.rbuf ++ [b] }) ∧
    (81 ≤ s.rbuf.length → exec (.rxData b) s = .next s)

/-- The contract of the reassembler over a whole line (R153, R116, R155; derived by the spec): from an empty line, any
bytes without LF and then LF emit exactly the first 81 of them that are not CR, if that text starts with `'$'`, and
otherwise leave nothing behind. -/
def Obligations.LineIsEmittedWithoutCrCutTo81Bytes : Prop :=
  ∀ (s : State) (bs : List Byte) (rest : List Token),
    s.rbuf = [] → s.queue.length < 32 → (∀ b ∈ bs, b ≠ chLF) → s.inputs = rxLines (bs ++ [chLF]) ++ rest →
    (((bs.filter fun b => b != chCR).take 81).head? = some chDollar →
      run (bs.length + 1) s = .next
        { s with
          inputs := rest
          queue := s.queue ++ [.fromSerial ((bs.filter fun b => b != chCR).take 81)] }) ∧
    (((bs.filter fun b => b != chCR).take 81).head? ≠ some chDollar →
      run (bs.length + 1) s = .next { s with inputs := rest })

/-! ### The queue (44_queue_dispatch.md) -/

/-- enqueue (R252; the saturation D23 and the event per drop D29 are the spec's own), by either producer: the message goes to the end while fewer than 32 are held; on a full queue the
NEW message is lost, the saturating counter moves and one event is appended. Nothing else changes. -/
def Obligations.EnqueueAppendsOrDropsTheNewMessage : Prop :=
  ∀ (m : Msg) (src : Producer) (s : State),
    (s.queue.length < 32 → enqueue m src s = { s with queue := s.queue ++ [m] }) ∧
    (32 ≤ s.queue.length →
      enqueue m src s =
        { s with
          bpCount := BitVec.ofNat 32 (min (s.bpCount.toNat + 1) (2 ^ 32 - 1))
          diag := s.diag ++ [.backpressure src] })

/-- BRX.ENQ (R253): every frame, unchecked, is enqueued by the bus producer; on a full queue with the counter (D23) and the
event (D29) of that drop. -/
def Obligations.BrxEnqQueuesEveryFrameUnchecked : Prop :=
  ∀ (s : State) (f : Frame),
    (s.queue.length < 32 → exec (.brxEnq f) s = .next { s with queue := s.queue ++ [.fromBus f] }) ∧
    (32 ≤ s.queue.length →
      exec (.brxEnq f) s = .next
        { s with
          bpCount := BitVec.ofNat 32 (min (s.bpCount.toNat + 1) (2 ^ 32 - 1))
          diag := s.diag ++ [.backpressure .bus] })

/-- The queue-overflow property (R252; D23, D29), for any number of frames with no consumption in between: the queue keeps the
first 32 messages in order, and each message beyond them moves the counter and appends one event. -/
def Obligations.OverflowKeepsTheFirst32InOrder : Prop :=
  ∀ (s : State) (fs : List Frame) (rest : List Token),
    s.queue.length ≤ 32 → s.inputs = fs.map Token.can ++ rest →
    run fs.length s = .next
      { s with
        inputs := rest
        queue := (s.queue ++ fs.map Msg.fromBus).take 32
        bpCount := BitVec.ofNat 32 (min (s.bpCount.toNat + (s.queue.length + fs.length - 32)) (2 ^ 32 - 1))
        diag := s.diag ++ List.replicate (s.queue.length + fs.length - 32) (.backpressure .bus) }

/-- CON.DEQ (R255, D22): enabled when the consumer is IDLE and a message is queued; the oldest goes to `cur` and `qhead`
moves on, wrapping from 31 to 0 (R33, D21). -/
def Obligations.ConDeqTakesTheOldestMessage : Prop :=
  ∀ (s : State) (m : Msg) (rest : List Msg),
    s.cur = none → s.queue = m :: rest →
    exec .conDeq s = .next { s with cur := some m, queue := rest, qhead := s.qhead + 1 } ∧
      (s.qhead + 1).val = (s.qhead.val + 1) % 32

/-- CON.DEQ and CON.EXEC where they are not enabled (R255, R256, R257): no step, so nothing changes. That the model
passes such a line with the state unchanged is its own choice (log entry 3). -/
def Obligations.ConsumerNotEnabledChangesNothing : Prop :=
  ∀ s : State,
    (s.cphase = .busy ∨ s.qcount = 0 → exec .conDeq s = .next s) ∧
    (s.cphase = .idle → exec .dispatchFromBus s = .next s ∧ ∀ r, exec (.dispatchFromSerial r) s = .next s) ∧
    (∀ buf, s.cur = some (.fromSerial buf) → exec .dispatchFromBus s = .next s) ∧
    (∀ f r, s.cur = some (.fromBus f) → exec (.dispatchFromSerial r) s = .next s)

/-- First in, first out (R77 c, R261): over any run without RESET, what was queued followed by what is accepted is what
is taken followed by what is left. -/
def Obligations.DequeueOrderIsEnqueueOrder : Prop :=
  ∀ (n : Nat) (s t : State),
    (∀ x ∈ s.inputs.take n, x ≠ .reset) → run n s = .next t →
    s.queue ++ runAccepted n s = runTaken n s ++ t.queue

/-! ### The dispatcher (44_queue_dispatch.md) -/

/-- DISPATCH.FROMBUS (R258; D6, D25): a frame that breaks its invariant raises FRAME_INVARIANT; any other frame is given to the
decoder its PGN selects, and the sentence, if there is one, is written to the serial transport. Whatever the outcome,
the consumer is IDLE afterwards (R257). -/
def Obligations.DispatchFromBusRunsTheSelectedDecoder : Prop :=
  ∀ (s : State) (f : Frame), s.cur = some (.fromBus f) →
    (f.ide = false ∨ 8 < f.dlc.toNat →
      exec .dispatchFromBus s =
        .next { s with cur := none, diag := s.diag ++ [.malformedInput .frameInvariant] }) ∧
    (f.ide = true → f.dlc.toNat ≤ 8 →
      ∃ i u, decode (.canid f) = .ok i ∧ exec i s = .next u ∧
        exec .dispatchFromBus s =
          .next { u with cur := none, ret := s.ret, serTx := s.serTx ++ sentenceOf u.ret })

/-- DISPATCH.FROMSERIAL (R259; D26): a buffer that fails a check raises its reason; any other buffer is given to the encoder
its tag selects, the frame, if there is one, is submitted with ENV's answer, and an answer other than Ok raises
TransportFailure. Whatever the outcome, the consumer is IDLE afterwards (R257). -/
def Obligations.DispatchFromSerialRunsTheSelectedEncoder : Prop :=
  ∀ (s : State) (buf : List Byte) (r : BusAnswer), s.cur = some (.fromSerial buf) →
    (∀ e, checkSentence true buf = .error e →
      exec (.dispatchFromSerial r) s = .next { s with cur := none, diag := s.diag ++ [.malformedInput e] }) ∧
    (∀ n, checkSentence true buf = .ok n →
      ∃ i u, decode (.tag3 buf) = .ok i ∧ exec i s = .next u ∧
        exec (.dispatchFromSerial r) s =
          .next
            { u with
              cur := none
              ret := s.ret
              busTx := s.busTx ++ submitted (frameOf u.ret) r
              diag := u.diag ++ submitEvents (frameOf u.ret) r })

/-- The checks of a sentence buffer and their order (R211, R212, R306; D2, D19, D20): first `'$'`, then the length, then
the checksum verdict; the first failure is the one reported. -/
def Obligations.SentenceChecksReportTheFirstFailure : Prop :=
  ∀ buf : List Byte,
    (buf.head? ≠ some chDollar → checkSentence true buf = .error .noDollar) ∧
    (buf.head? = some chDollar → buf.length < 6 → checkSentence true buf = .error .tooShort) ∧
    (buf.head? = some chDollar → 6 ≤ buf.length →
      ((csChkVerdict buf).1 = .badFormat → checkSentence true buf = .error .badChecksumFormat) ∧
      ((csChkVerdict buf).1 = .mismatch → checkSentence true buf = .error .checksumMismatch) ∧
      ((csChkVerdict buf).1 = .isMatch ∨ (csChkVerdict buf).1 = .absent →
        checkSentence true buf = .ok (csChkVerdict buf).2))

/-- With `CS_ENFORCE` = false every verdict passes and serves only to find `bodyEnd` (R137, D2). -/
def Obligations.WithoutEnforcementEveryVerdictPasses : Prop :=
  ∀ buf : List Byte, buf.head? = some chDollar → 6 ≤ buf.length →
    checkSentence false buf = .ok (csChkVerdict buf).2

/-- A buffer that does not begin with `'$'` reaches no encoder and produces no frame (R158, S6; derived by the spec). -/
def Obligations.NoFrameWithoutLeadingDollar : Prop :=
  ∀ (s : State) (buf : List Byte) (r : BusAnswer),
    s.cur = some (.fromSerial buf) → buf.head? ≠ some chDollar →
    exec (.dispatchFromSerial r) s =
      .next { s with cur := none, diag := s.diag ++ [.malformedInput .noDollar] }

/-- Isolation (R260): after any CON.EXEC the consumer is IDLE, so CON.DEQ is enabled as soon as a message is queued, and the
queue, the pending line and the counter are as before; and what it adds to the traces depends on the message and ENV's answer alone. -/
def Obligations.TranslationDependsOnItsMessageAlone : Prop :=
  ∀ (m : Msg) (r : BusAnswer), ∃ (out : List Byte) (tx : List (Frame × BusAnswer)) (ev : List Event),
    ∀ s : State, s.cur = some m →
      ∃ t, exec (decodeMsg (msgTag m) r) s = .next t ∧ t.cphase = .idle ∧
        t.queue = s.queue ∧ t.qhead = s.qhead ∧ t.rbuf = s.rbuf ∧ t.bpCount = s.bpCount ∧ t.inputs = s.inputs ∧
        t.serTx = s.serTx ++ out ∧ t.busTx = s.busTx ++ tx ∧ t.diag = s.diag ++ ev

/-! ### The decoders (42_frame_decode.md) -/

/-- DEC.HDT (R178; D7 to D10): FRAME_SHORT below 3 bytes; else the little-endian heading at offset 1 is scaled, rounded to one
decimal and sealed in `obuf`. -/
def Obligations.DecHdtWritesTheHeadingSentence : Prop :=
  ∀ (s : State) (f : Frame),
    (f.dlc.toNat < 3 →
      exec (.decHdt f) s = .next { s with diag := s.diag ++ [.malformedInput .frameShort], ret := none }) ∧
    (3 ≤ f.dlc.toNat →
      ∃ h body out, h = f.data[1].toNat + 256 * f.data[2].toNat ∧
        body = asc ['H', 'E', 'H', 'D', 'T', ','] ++ fix ((2 * (h * 572958) + 10 ^ 7) / (2 * 10 ^ 7)) 1 ++
          asc [',', 'T'] ∧
        out = [chDollar] ++ body ++ [chStar] ++ hex2 (xor8 body) ++ [chCR, chLF] ∧
        exec (.decHdt f) s = .next { s with obuf := out, ret := some (.sentence out) })

/-- DEC.DPT (R179; D7, D8, D11): FRAME_SHORT below 5 bytes; else the little-endian depth at offset 1, in hundredths. -/
def Obligations.DecDptWritesTheDepthSentence : Prop :=
  ∀ (s : State) (f : Frame),
    (f.dlc.toNat < 5 →
      exec (.decDpt f) s = .next { s with diag := s.diag ++ [.malformedInput .frameShort], ret := none }) ∧
    (5 ≤ f.dlc.toNat →
      ∃ d body out,
        d = f.data[1].toNat + 256 * f.data[2].toNat + 65536 * f.data[3].toNat + 16777216 * f.data[4].toNat ∧
        body = asc ['H', 'E', 'D', 'P', 'T', ','] ++ fix d 2 ++ asc [',', '0', '.', '0', ','] ∧
        out = [chDollar] ++ body ++ [chStar] ++ hex2 (xor8 body) ++ [chCR, chLF] ∧
        exec (.decDpt f) s = .next { s with obuf := out, ret := some (.sentence out) })

/-- DEC.VTG (R180; D7, D8, D9, D12): FRAME_SHORT below 6 bytes; else course at offset 2 and speed at offset 4, in knots and
km/h. -/
def Obligations.DecVtgWritesTheCourseAndSpeedSentence : Prop :=
  ∀ (s : State) (f : Frame),
    (f.dlc.toNat < 6 →
      exec (.decVtg f) s = .next { s with diag := s.diag ++ [.malformedInput .frameShort], ret := none }) ∧
    (6 ≤ f.dlc.toNat →
      ∃ c v body out, c = f.data[2].toNat + 256 * f.data[3].toNat ∧ v = f.data[4].toNat + 256 * f.data[5].toNat ∧
        body = asc ['H', 'E', 'V', 'T', 'G', ','] ++ fix ((2 * (c * 572958) + 10 ^ 7) / (2 * 10 ^ 7)) 1 ++
          asc [',', 'T', ',', ',', 'M', ','] ++ fix ((2 * (v * 194384) + 10 ^ 5) / (2 * 10 ^ 5)) 2 ++
          asc [',', 'N', ','] ++ fix ((2 * (v * 36) + 10) / (2 * 10)) 2 ++ asc [',', 'K'] ∧
        out = [chDollar] ++ body ++ [chStar] ++ hex2 (xor8 body) ++ [chCR, chLF] ∧
        exec (.decVtg f) s = .next { s with obuf := out, ret := some (.sentence out) })

/-- DEC.UNREC (R174): one event, and `obuf`, `olen`, `ser_tx` and everything else as before. -/
def Obligations.DecUnrecOnlyReportsThePgn : Prop :=
  ∀ (s : State) (f : Frame),
    exec (.decUnrec f) s = .next { s with diag := s.diag ++ [.unrecognizedIdentifier .pgn], ret := none }

/-- CANID (R102, R173): for a frame that keeps its invariant the 18 bits `id[25:8]` select the decoder. -/
def Obligations.PgnSelectsTheDecoder : Prop :=
  ∀ f : Frame, f.ide = true → f.dlc.toNat ≤ 8 →
    (f.id &&& 0x03FFFF00#29 = 0x01F11200#29 → decode (.canid f) = .ok (.decHdt f)) ∧
    (f.id &&& 0x03FFFF00#29 = 0x01F50B00#29 → decode (.canid f) = .ok (.decDpt f)) ∧
    (f.id &&& 0x03FFFF00#29 = 0x01F80200#29 → decode (.canid f) = .ok (.decVtg f)) ∧
    (f.id &&& 0x03FFFF00#29 ≠ 0x01F11200#29 → f.id &&& 0x03FFFF00#29 ≠ 0x01F50B00#29 →
      f.id &&& 0x03FFFF00#29 ≠ 0x01F80200#29 → decode (.canid f) = .ok (.decUnrec f))

/-- The identifier is its three fields, most significant first, and they are read back (R97, R98, R171; D35). -/
def Obligations.IdentifierIsItsThreeFields : Prop :=
  (∀ f : Frame, f.id.toNat = f.prio.toNat * 2 ^ 26 + f.pgn.toNat * 2 ^ 8 + f.sa.toNat) ∧
  (∀ (p : BitVec 3) (g : BitVec 18) (a : Byte) (f : Frame), f.id = composeId p g a →
    f.prio = p ∧ f.pgn = g ∧ f.sa = a)

/-- A frame's translation depends on its PGN, its marker, its length and the bytes below its length only (R171, R183,
R185): not on priority, source address, or the bytes the transport left open (U2). -/
def Obligations.DecodingIgnoresPrioritySourceAndOpenBytes : Prop :=
  ∀ (s : State) (f g : Frame),
    f.pgn = g.pgn → f.ide = g.ide → f.dlc = g.dlc → (∀ k : Fin 8, k.val < f.dlc.toNat → f.data[k] = g.data[k]) →
    exec .dispatchFromBus { s with cur := some (.fromBus f) } =
      exec .dispatchFromBus { s with cur := some (.fromBus g) }

/-- Length bounds of the generated sentences (R184; derived by the spec). -/
def Obligations.GeneratedSentencesHaveBoundedLength : Prop :=
  (∀ h, h < 2 ^ 16 → 17 ≤ (csGenBytes (hdtBody h)).length ∧ (csGenBytes (hdtBody h)).length ≤ 19) ∧
  (∀ d, d < 2 ^ 32 → 21 ≤ (csGenBytes (dptBody d)).length ∧ (csGenBytes (dptBody d)).length ≤ 28) ∧
  (∀ c v, c < 2 ^ 16 → v < 2 ^ 16 →
    34 ≤ (csGenBytes (vtgBody c v)).length ∧ (csGenBytes (vtgBody c v)).length ≤ 42)

/-! ### Numeric primitives -/

/-- `rdiv` is the nearest integer, an exact half upward (R175, D9). -/
def Obligations.RdivIsNearestWithHalvesUp : Prop :=
  ∀ a b q : Nat, 0 < b → (rdiv a b = q ↔ 2 * b * q ≤ 2 * a + b ∧ 2 * a + b < 2 * b * (q + 1))

/-- `fix(n, p)` writes `n / 10^p` exactly, with `p` fraction digits (R176, D10), and `parse_num` reads it back. -/
def Obligations.FixedPointTextReadsBackExactly : Prop :=
  ∀ n p : Nat, 1 ≤ p → parseNum (fix n p) = some (n, p)

/-- `fix(n, p)` has no leading zeros: its first byte is `'0'` only when the integer part is the single digit zero
(R176, D10). -/
def Obligations.FixedPointTextHasNoLeadingZero : Prop :=
  ∀ n p : Nat, (fix n p).head? = some 0x30#8 → n < 10 ^ p ∧ (fix n p)[1]? = some chDot

/-- The number grammar (R216, D15): one or more digits, optionally a point and one or more digits, nothing else. -/
def Obligations.NumberGrammarIsDigitsPointDigits : Prop :=
  ∀ (f : List Byte) (n k : Nat), parseNum f = some (n, k) ↔
    (f ≠ [] ∧ f.all isDigit = true ∧ n = digitsVal f ∧ k = 0) ∨
    (∃ ip fp, f = ip ++ [chDot] ++ fp ∧ ip ≠ [] ∧ fp ≠ [] ∧ ip.all isDigit = true ∧ fp.all isDigit = true ∧
      n = digitsVal (ip ++ fp) ∧ k = fp.length)

/-- Field 1 (R215, D15): the text between the first comma and the next one or `bodyEnd`, missing if there is no comma
below `bodyEnd`. -/
def Obligations.FieldOneIsTheTextAfterTheFirstComma : Prop :=
  ∀ (buf : List Byte) (n : Nat),
    (chComma ∉ buf.take n → field buf n 1 = none) ∧
    (∀ p f, buf.take n = p ++ [chComma] ++ f → chComma ∉ p → chComma ∉ f → field buf n 1 = some f) ∧
    (∀ p f rest, buf.take n = p ++ [chComma] ++ f ++ [chComma] ++ rest → chComma ∉ p → chComma ∉ f →
      field buf n 1 = some f)

/-! ### The encoders (43_sentence_encode.md) -/

/-- ENC.HDT (R221; D15 to D18): the four errors of field 1, and the frame of the rounded heading. -/
def Obligations.EncHdtBuildsTheHeadingFrame : Prop :=
  ∀ (s : State) (buf : List Byte) (n : Nat),
    (field buf n 1 = none →
      exec (.encHdt buf n) s = .next { s with diag := s.diag ++ [.malformedInput .fieldMissing], ret := none }) ∧
    (field buf n 1 = some [] →
      exec (.encHdt buf n) s = .next { s with diag := s.diag ++ [.malformedInput .fieldEmpty], ret := none }) ∧
    (∀ f, field buf n 1 = some f → f ≠ [] → parseNum f = none →
      exec (.encHdt buf n) s = .next { s with diag := s.diag ++ [.malformedInput .notNumeric], ret := none }) ∧
    (∀ f v k raw, field buf n 1 = some f → parseNum f = some (v, k) →
      raw = (2 * (v * 10 ^ 8) + 572958 * 10 ^ k) / (2 * (572958 * 10 ^ k)) →
      (0xFFFF < raw →
        exec (.encHdt buf n) s = .next { s with diag := s.diag ++ [.malformedInput .outOfRange], ret := none }) ∧
      (raw ≤ 0xFFFF →
        exec (.encHdt buf n) s = .next
          { s with
            ret := some (.frame
              { id := BitVec.ofNat 29 (2 * 2 ^ 26 + 127250 * 2 ^ 8 + cfg.srcAddr.toNat)
                ide := true
                dlc := 8#4
                data := #v[0xFF#8, BitVec.ofNat 8 raw, BitVec.ofNat 8 (raw / 256), 0xFF#8, 0xFF#8, 0xFF#8, 0xFF#8,
                  0xFF#8] }) }))

/-- ENC.DPT (R222; D15 to D18): the four errors of field 1, and the frame of the rounded depth. -/
def Obligations.EncDptBuildsTheDepthFrame : Prop :=
  ∀ (s : State) (buf : List Byte) (n : Nat),
    (field buf n 1 = none →
      exec (.encDpt buf n) s = .next { s with diag := s.diag ++ [.malformedInput .fieldMissing], ret := none }) ∧
    (field buf n 1 = some [] →
      exec (.encDpt buf n) s = .next { s with diag := s.diag ++ [.malformedInput .fieldEmpty], ret := none }) ∧
    (∀ f, field buf n 1 = some f → f ≠ [] → parseNum f = none →
      exec (.encDpt buf n) s = .next { s with diag := s.diag ++ [.malformedInput .notNumeric], ret := none }) ∧
    (∀ f v k raw, field buf n 1 = some f → parseNum f = some (v, k) →
      raw = (2 * (v * 100) + 10 ^ k) / (2 * 10 ^ k) →
      (0xFFFFFFFF < raw →
        exec (.encDpt buf n) s = .next { s with diag := s.diag ++ [.malformedInput .outOfRange], ret := none }) ∧
      (raw ≤ 0xFFFFFFFF →
        exec (.encDpt buf n) s = .next
          { s with
            ret := some (.frame
              { id := BitVec.ofNat 29 (3 * 2 ^ 26 + 128267 * 2 ^ 8 + cfg.srcAddr.toNat)
                ide := true
                dlc := 8#4
                data := #v[0xFF#8, BitVec.ofNat 8 raw, BitVec.ofNat 8 (raw / 256), BitVec.ofNat 8 (raw / 65536),
                  BitVec.ofNat 8 (raw / 16777216), 0xFF#8, 0xFF#8, 0xFF#8] }) }))

/-- ENC.UNREC (R214): one event, `bus_tx` and everything else as before. -/
def Obligations.EncUnrecOnlyReportsTheTag : Prop :=
  ∀ (s : State) (buf : List Byte),
    exec (.encUnrec buf) s = .next { s with diag := s.diag ++ [.unrecognizedIdentifier .tag], ret := none }

/-- TAG3 (R103): for a buffer that passed the checks the three bytes at offsets 3 to 5 select the encoder, byte for
byte. -/
def Obligations.TagSelectsTheEncoder : Prop :=
  ∀ (buf : List Byte) (n : Nat), checkSentence true buf = .ok n →
    ((buf.drop 3).take 3 = [0x48#8, 0x44#8, 0x54#8] → decode (.tag3 buf) = .ok (.encHdt buf n)) ∧
    ((buf.drop 3).take 3 = [0x44#8, 0x50#8, 0x54#8] → decode (.tag3 buf) = .ok (.encDpt buf n)) ∧
    ((buf.drop 3).take 3 ≠ [0x48#8, 0x44#8, 0x54#8] → (buf.drop 3).take 3 ≠ [0x44#8, 0x50#8, 0x54#8] →
      decode (.tag3 buf) = .ok (.encUnrec buf))

/-- What an encoder ignores of a sentence without a checksum (R223; derived by the spec), for both tags: the talker,
whatever stands between the tag and the first comma (so whether byte 6 is a comma), and everything after field 1. -/
def Obligations.EncodingIgnoresTalkerAndLaterFields : Prop :=
  ∀ (s : State) (r : BusAnswer) (tag : List Byte) (a b c d : Byte) (x y f t u : List Byte),
    tag = asc ['H', 'D', 'T'] ∨ tag = asc ['D', 'P', 'T'] →
    (∀ z ∈ [a, b, c, d] ++ x ++ y ++ f, z ≠ chComma ∧ z ≠ chStar) →
    chStar ∉ t → chStar ∉ u → (t = [] ∨ t.head? = some chComma) → (u = [] ∨ u.head? = some chComma) →
    exec (.dispatchFromSerial r)
        { s with cur := some (.fromSerial ([chDollar, a, b] ++ tag ++ x ++ [chComma] ++ f ++ t)) } =
      exec (.dispatchFromSerial r)
        { s with cur := some (.fromSerial ([chDollar, c, d] ++ tag ++ y ++ [chComma] ++ f ++ u)) }

/-- The depth pair is exact (R224; derived by the spec): the sentence DEC.DPT prints, as the reassembler would hold it,
passes the checks, selects ENC.DPT and encodes to the four depth bytes it came from. -/
def Obligations.DepthSurvivesDecodeThenEncode : Prop :=
  ∀ (s u : State) (f : Frame) (out : List Byte),
    5 ≤ f.dlc.toNat → exec (.decDpt f) s = .next u → u.ret = some (.sentence out) →
    ∃ n g, checkSentence true (out.take (out.length - 2)) = .ok n ∧
      decode (.tag3 (out.take (out.length - 2))) = .ok (.encDpt (out.take (out.length - 2)) n) ∧
      exec (.encDpt (out.take (out.length - 2)) n) u = .next { u with ret := some (.frame g) } ∧
      g.data[1] = f.data[1] ∧ g.data[2] = f.data[2] ∧ g.data[3] = f.data[3] ∧ g.data[4] = f.data[4]

/-- The heading pair (R224; derived by the spec): the sentence DEC.HDT prints, as the reassembler would hold it, passes
the checks and selects ENC.HDT, which encodes it within 9 raw units up to 65528 and refuses it from 65529 on. -/
def Obligations.HeadingSurvivesDecodeThenEncodeWithin9 : Prop :=
  ∀ (s u : State) (f : Frame) (out : List Byte) (h : Nat),
    3 ≤ f.dlc.toNat → h = f.data[1].toNat + 256 * f.data[2].toNat →
    exec (.decHdt f) s = .next u → u.ret = some (.sentence out) →
    ∃ n, checkSentence true (out.take (out.length - 2)) = .ok n ∧
      decode (.tag3 (out.take (out.length - 2))) = .ok (.encHdt (out.take (out.length - 2)) n) ∧
      (h ≤ 65528 →
        ∃ g, exec (.encHdt (out.take (out.length - 2)) n) u = .next { u with ret := some (.frame g) } ∧
          h ≤ g.data[1].toNat + 256 * g.data[2].toNat + 9 ∧ g.data[1].toNat + 256 * g.data[2].toNat ≤ h + 9) ∧
      (65529 ≤ h →
        exec (.encHdt (out.take (out.length - 2)) n) u =
          .next { u with diag := u.diag ++ [.malformedInput .outOfRange], ret := none })

/-! ### The checksum engine (40_checksum.md) -/

/-- CS.GEN (R133): `'$'`, the body, `'*'`, the two digits, CR, LF; no state of the block is written. -/
def Obligations.CsGenSealsTheBody : Prop :=
  ∀ (s : State) (body : List Byte),
    exec (.csGen body) s = .next
      { s with ret := some (.sentence ([chDollar] ++ body ++ [chStar] ++ hex2 (xor8 body) ++ [chCR, chLF])) }

/-- CS.CHK (R135, D3), by what stands at and after the first `'*'`. `p` is the text before it. -/
def Obligations.CsChkVerdictFollowsTheFirstStar : Prop :=
  ∀ (s : State) (p t : List Byte), chStar ∉ p →
    exec (.csChk p) s = .next { s with ret := some (.verdict .absent p.length) } ∧
    (t.length ≠ 2 →
      exec (.csChk (p ++ [chStar] ++ t)) s = .next { s with ret := some (.verdict .badFormat p.length) }) ∧
    (∀ a b, t = [a, b] → hexval a = none ∨ hexval b = none →
      exec (.csChk (p ++ [chStar] ++ t)) s = .next { s with ret := some (.verdict .badFormat p.length) }) ∧
    (∀ a b h l, t = [a, b] → hexval a = some h → hexval b = some l →
      exec (.csChk (p ++ [chStar] ++ t)) s = .next
        { s with
          ret := some (.verdict
            (if 16 * h + l = (xor8 (p.drop 1)).toNat then .isMatch else .mismatch) p.length) })

/-- Every generated checksum validates (R136 e, S4; derived by the spec). -/
def Obligations.GeneratedChecksumAlwaysMatches : Prop :=
  ∀ (s : State) (body : List Byte), chStar ∉ body →
    exec (.csChk ([chDollar] ++ body ++ [chStar] ++ hex2 (xor8 body))) s = .next
      { s with ret := some (.verdict .isMatch (body.length + 1)) }

/-- Laws of the engine (R136 a to c; derived by the spec): it is a homomorphism to XOR, order does not matter, and
changing one byte always changes the checksum. -/
def Obligations.XorEngineLaws : Prop :=
  (∀ a b, xor8 (a ++ b) = xor8 a ^^^ xor8 b) ∧
  (∀ a b : List Byte, a.Perm b → xor8 a = xor8 b) ∧
  (∀ (a b : List Byte) (x y : Byte), x ≠ y →
    xor8 (a ++ [y] ++ b) = xor8 (a ++ [x] ++ b) ^^^ x ^^^ y ∧ xor8 (a ++ [x] ++ b) ≠ xor8 (a ++ [y] ++ b))

/-! ### Errors (60_exceptions.md) -/

/-- `raise` (R300, R296): one event at the end of `diag`, nothing saved and nothing else changed; the message in hand is
dropped by the operation that holds it (log entry 10). -/
def Obligations.RaiseAppendsOneEventOnly : Prop :=
  ∀ (e : Event) (s : State), raise e s = { s with diag := s.diag ++ [e] }

/-- The (class, reason) codes of the 17 events, as R290 and R297 table them (D24), and no two events share a pair. -/
def Obligations.EventCodesAreThoseOfTheTable : Prop :=
  (Event.unrecognizedIdentifier .pgn).codes = (1, 1) ∧
    (Event.unrecognizedIdentifier .tag).codes = (1, 2) ∧
    (Event.malformedInput .noDollar).codes = (2, 1) ∧
    (Event.malformedInput .tooShort).codes = (2, 2) ∧
    (Event.malformedInput .badChecksumFormat).codes = (2, 3) ∧
    (Event.malformedInput .checksumMismatch).codes = (2, 4) ∧
    (Event.malformedInput .fieldMissing).codes = (2, 5) ∧
    (Event.malformedInput .fieldEmpty).codes = (2, 6) ∧
    (Event.malformedInput .notNumeric).codes = (2, 7) ∧
    (Event.malformedInput .outOfRange).codes = (2, 8) ∧
    (Event.malformedInput .frameShort).codes = (2, 9) ∧
    (Event.malformedInput .frameInvariant).codes = (2, 10) ∧
    (Event.malformedInput .outputOverflow).codes = (2, 11) ∧
    (Event.backpressure .bus).codes = (3, 1) ∧
    (Event.backpressure .ser).codes = (3, 2) ∧
    (Event.transportFailure .timeout).codes = (4, 1) ∧
    (Event.transportFailure .error).codes = (4, 2) ∧
    ∀ a b : Event, a.codes = b.codes → a = b

/-- No input, in any state, stops the block, and every operation is total on its operands, called by an agent or by
itself (R295). -/
def Obligations.EveryStepAndOperationAnswersANextState : Prop :=
  ∀ s : State, (∃ t, step s = .next t) ∧ ∀ i : Instr, ∃ t, exec i s = .next t

/-- An operation raises at most once (R302; derived by the spec): a step other than RESET appends at most one event. -/
def Obligations.AStepRaisesAtMostOnce : Prop :=
  ∀ s t : State, s.inputs.head? ≠ some .reset → step s = .next t →
    t.diag = s.diag ∨ ∃ e, t.diag = s.diag ++ [e]

/-! ### Reset (70_reset_and_hazards.md) -/

/-- RESET (R330, D27): every cursor, count and trace to zero or empty, the consumer IDLE, no live byte anywhere. That
the lines still to come and the count of free values stay is the model's choice (log entries 2, 8). -/
def Obligations.ResetClearsTheWholeBlock : Prop :=
  ∀ s : State, exec .reset s = .next
    { rbuf := [], queue := [], qhead := 0, bpCount := 0#32, cur := none, obuf := [], serTx := [], busTx := [],
      diag := [], inputs := s.inputs, ret := none, freeCtr := s.freeCtr }

/-- The reset values (R43, D27). -/
def Obligations.ResetStateHasTheSpecsValues : Prop :=
  State.reset.rcur = 0 ∧ State.reset.qhead.val = 0 ∧ State.reset.qcount = 0 ∧ State.reset.bpCount.toNat = 0 ∧
    State.reset.cphase = .idle ∧ State.reset.olen = 0 ∧ State.reset.serTx = [] ∧ State.reset.busTx = [] ∧
    State.reset.diag = []

/-- The invariant holds after reset (R44). -/
def Obligations.ResetStateMeetsTheInvariant : Prop := State.reset.inv = true

/-! ### Whole-machine rules -/

/-- The invariant of R44 a to g (derived by the spec) is kept by every step. -/
def Obligations.EveryStepKeepsTheInvariant : Prop :=
  ∀ s t : State, s.inv = true → step s = .next t → t.inv = true

/-- Everything on the bus was built by an encoder (R219, R220; D17, D18), after every step. -/
def Obligations.EveryStepKeepsBusFramesEncoded : Prop :=
  ∀ s t : State, (∀ x ∈ s.busTx, encodedFrame x.1) → step s = .next t → ∀ x ∈ t.busTx, encodedFrame x.1

/-- `ser_tx` is a sequence of whole generated sentences (R78, R109, R184; derived by the spec), after every step. -/
def Obligations.EveryStepKeepsSerialOutputWhole : Prop :=
  ∀ s t : State, (∃ outs : List (List Byte), s.serTx = outs.flatten ∧ ∀ o ∈ outs, generated o) →
    step s = .next t → ∃ outs : List (List Byte), t.serTx = outs.flatten ∧ ∀ o ∈ outs, generated o

/-- The traces only grow and the counter never falls, but for RESET (R28, R36, R44 h). -/
def Obligations.TracesOnlyGrow : Prop :=
  ∀ s t : State, s.inputs.head? ≠ some .reset → step s = .next t →
    (∃ a, t.serTx = s.serTx ++ a) ∧ (∃ a, t.busTx = s.busTx ++ a) ∧ (∃ a, t.diag = s.diag ++ a) ∧
      s.bpCount.toNat ≤ t.bpCount.toNat

/-- Ownership (R20, R77 d, R157): a producer's line leaves the consumer's state, the outputs and `qhead` alone, a frame
leaves the pending line alone, and a consumer's line leaves the pending line and the counter alone. `ret` is written by
no agent's step (log entry 9). -/
def Obligations.AgentsKeepToTheirOwnState : Prop :=
  ∀ s t : State, ∀ x rest, s.inputs = x :: rest → step s = .next t →
    (∀ b, x = .rx b → t.cur = s.cur ∧ t.obuf = s.obuf ∧ t.serTx = s.serTx ∧ t.busTx = s.busTx ∧ t.qhead = s.qhead ∧
      t.ret = s.ret ∧ t.freeCtr = s.freeCtr ∧ t.inputs = rest) ∧
    (∀ f, x = .can f → t.rbuf = s.rbuf ∧ t.cur = s.cur ∧ t.obuf = s.obuf ∧ t.serTx = s.serTx ∧ t.busTx = s.busTx ∧
      t.qhead = s.qhead ∧ t.ret = s.ret ∧ t.freeCtr = s.freeCtr ∧ t.inputs = rest) ∧
    (x = .deq → t.rbuf = s.rbuf ∧ t.bpCount = s.bpCount ∧ t.obuf = s.obuf ∧ t.serTx = s.serTx ∧ t.busTx = s.busTx ∧
      t.diag = s.diag ∧ t.ret = s.ret ∧ t.freeCtr = s.freeCtr ∧ t.inputs = rest) ∧
    (∀ r, x = .exec r → t.rbuf = s.rbuf ∧ t.bpCount = s.bpCount ∧ t.queue = s.queue ∧ t.qhead = s.qhead ∧
      t.ret = s.ret ∧ t.inputs = rest)

/-- Moving a producer's operation past CON.EXEC (R268; derived by the spec): same queue, line, counter and outputs; only
the order inside `diag` can differ. -/
def Obligations.ProducerStepCommutesWithExec : Prop :=
  ∀ (s t u : State) (p : Token) (r : BusAnswer) (rest : List Token),
    (∃ b, p = .rx b) ∨ (∃ f, p = .can f) →
    run 2 { s with inputs := p :: .exec r :: rest } = .next t →
    run 2 { s with inputs := .exec r :: p :: rest } = .next u →
    t.rbuf = u.rbuf ∧ t.queue = u.queue ∧ t.qhead = u.qhead ∧ t.bpCount = u.bpCount ∧ t.cur = u.cur ∧
      t.obuf = u.obuf ∧ t.serTx = u.serTx ∧ t.busTx = u.busTx ∧ t.inputs = u.inputs ∧ t.diag.Perm u.diag

/-- `drain` ends the run (R118, R271; D1): with fewer messages queued than `step` lines, the queue is empty and the
consumer IDLE after them, whatever the messages hold. -/
def Obligations.DrainReachesTheEndOfTheRun : Prop :=
  ∀ (s : State) (n : Nat) (rest : List Token), s.queue.length < n → s.inputs = drainLines n ++ rest →
    ∃ t, run (2 * n) s = .next t ∧ t.queue = [] ∧ t.cphase = .idle ∧ t.inputs = rest ∧ t.rbuf = s.rbuf ∧
      t.bpCount = s.bpCount

/-! ### Stepping and encodings (30_encoding.md) -/

/-- A step runs the decoded operation: the next line is taken, the operation its encoded form selects is run on the state
without that line. With no line, and for an `exec` line while the consumer is IDLE, nothing changes (log entries 2, 3). -/
def Obligations.AStepRunsTheDecodedOperation : Prop :=
  ∀ s : State,
    (s.inputs = [] → step s = .next s) ∧
    (∀ x rest, s.inputs = x :: rest →
      (fetchWord s.cur x = none → step s = .next { s with inputs := rest }) ∧
      (∀ w i, fetchWord s.cur x = some w → decode w = .ok i → step s = exec i { s with inputs := rest }))

/-- Which operation each line of the stimulus notation is (R117, D31): one SRX operation by the byte's class, one
BRX.ENQ, one CON.DEQ, one CON.EXEC by the tag of the message in `cur`, or RESET. -/
def Obligations.EachLineIsOneAgentOperation : Prop :=
  ∀ (s : State) (rest : List Token),
    step { s with inputs := .rx 0x0D#8 :: rest } = exec .rxCr { s with inputs := rest } ∧
    step { s with inputs := .rx 0x0A#8 :: rest } = exec .rxLf { s with inputs := rest } ∧
    (∀ b, b ≠ 0x0D#8 → b ≠ 0x0A#8 →
      step { s with inputs := .rx b :: rest } = exec (.rxData b) { s with inputs := rest }) ∧
    (∀ f, step { s with inputs := .can f :: rest } = exec (.brxEnq f) { s with inputs := rest }) ∧
    step { s with inputs := .deq :: rest } = exec .conDeq { s with inputs := rest } ∧
    (∀ f r, s.cur = some (.fromBus f) →
      step { s with inputs := .exec r :: rest } = exec .dispatchFromBus { s with inputs := rest }) ∧
    (∀ buf r, s.cur = some (.fromSerial buf) →
      step { s with inputs := .exec r :: rest } = exec (.dispatchFromSerial r) { s with inputs := rest }) ∧
    step { s with inputs := .reset :: rest } = exec .reset { s with inputs := rest }

/-- Words of the table, from the spec's encodings (R91, R101 to R103), decode to the operations they stand for. -/
def Obligations.TableWordsDecodeToTheirRows : Prop :=
  decode (.byte 0x0D#8) = .ok .rxCr ∧ decode (.byte 0x0A#8) = .ok .rxLf ∧
    decode (.byte 0x24#8) = .ok (.rxData 0x24#8) ∧ decode (.byte 0x00#8) = .ok (.rxData 0x00#8) ∧
    decode (.msg 0#1 .ok) = .ok .dispatchFromBus ∧ decode (.msg 1#1 .timeout) = .ok (.dispatchFromSerial .timeout) ∧
    decodeTableWord 32 0x01F11200 = some (.decHdt (wordFrame 0x01F11200)) ∧
    decodeTableWord 32 0x09F11223 = some (.decHdt (wordFrame 0x09F11223)) ∧
    decodeTableWord 32 0x0DF50B23 = some (.decDpt (wordFrame 0x0DF50B23)) ∧
    decodeTableWord 32 0x09F80223 = some (.decVtg (wordFrame 0x09F80223)) ∧
    decodeTableWord 32 0x0BF11223 = some (.decUnrec (wordFrame 0x0BF11223)) ∧
    decodeTableWord 24 0x484454 = some (.encHdt (wordSentence 0x484454) 8) ∧
    decodeTableWord 24 0x445054 = some (.encDpt (wordSentence 0x445054) 8) ∧
    decodeTableWord 24 0x565447 = some (.encUnrec (wordSentence 0x565447))

/-- Decode and encode agree: every well-formed operation, with every operand, is read back from its encoded form. -/
def Obligations.DecodingTheEncodedFormGivesTheOperation : Prop :=
  ∀ i : Instr, i.wf = true → decode (encode i) = .ok i

/-- The other direction: what decodes is well formed, and its encoded form is the one it was read from; ENV's answer on
a FromBus `exec` line, which no submit uses (R117), is the one part that is not kept. -/
def Obligations.WhatDecodesIsWellFormedAndEncodesBack : Prop :=
  ∀ (w : OpWord) (i : Instr), decode w = .ok i →
    i.wf = true ∧ (encode i = w ∨ ∃ r, w = .msg 0#1 r ∧ i = .dispatchFromBus)

/-- The registries (R38, R39, R40): the three PGNs and the two tags, no key twice. -/
def Obligations.RegistriesHaveDistinctKeys : Prop :=
  cfg.decodeTable = [(0x1F112#18, .hdt), (0x1F50B#18, .dpt), (0x1F802#18, .vtg)] ∧
    cfg.encodeTable = [([0x48#8, 0x44#8, 0x54#8], .hdt), ([0x44#8, 0x50#8, 0x54#8], .dpt)] ∧
    (cfg.decodeTable.map Prod.fst).Nodup ∧ (cfg.encodeTable.map Prod.fst).Nodup
end

