-- ==== Sys2Proof/Laws/Operands.lean ====
section
/-! SUPPORT. Laws of the operand helpers: reads and writes of the payload, the identifier, lengths of printed numbers,
and the classes of a byte. -/

namespace Sys2Proof

theorem memRead_zero {m : Nat} (d : Vector Byte m) (a : Nat) (h : a + 0 ≤ m) : memRead d a 0 h = 0 := rfl

theorem memRead_succ {m : Nat} (d : Vector Byte m) (a n : Nat) (h : a + (n + 1) ≤ m) :
    memRead d a (n + 1) h = d[a].toNat + 256 * memRead d (a + 1) n (by omega) := rfl

/-- A field of `n` bytes is below `256^n`. -/
theorem memRead_lt {m : Nat} (d : Vector Byte m) (a n : Nat) (h : a + n ≤ m) : memRead d a n h < 256 ^ n := by
  induction n generalizing a with
  | zero => simp [memRead]
  | succ n ih =>
    have := ih (a + 1) (by omega)
    have := d[a].isLt
    rw [memRead_succ, pow_succ]
    omega

/-- A common factor of both sides does not matter to the rounding (R175). -/
theorem rdiv_mul_right (a b m : Nat) (hm : 0 < m) : rdiv (a * m) (b * m) = rdiv a b := by
  have h1 : 2 * (a * m) + b * m = (2 * a + b) * m := by ring
  have h2 : 2 * (b * m) = 2 * b * m := by ring
  rw [rdiv, rdiv, h1, h2, Nat.mul_div_mul_right _ _ hm]

/-- Tenths of a degree, in the spec's form (R107, R177). -/
theorem angleScale_printed (h : Nat) : cfg.angleScale.printed h = rdiv (h * 572958) (10 ^ 7) := by
  have e : cfg.angleScale.printed h = rdiv (h * 572958 * 10 ^ 1) (10000 * 10000) := rfl
  rw [e, show 10000 * 10000 = 10 ^ 7 * 10 ^ 1 by norm_num, rdiv_mul_right _ _ _ (by norm_num)]

/-- Hundredths of a metre are the raw depth (R107, R179). -/
theorem depthScale_printed (d : Nat) : cfg.depthScale.printed d = d := by
  have h : cfg.depthScale.printed d = rdiv (d * 1 * 100) (1 * 100) := rfl
  rw [h, rdiv_mul_right _ _ _ (by norm_num), rdiv]
  omega

/-- Hundredths of a knot, in the spec's form (R107, R180). -/
theorem knotsScale_printed (s : Nat) : cfg.knotsScale.printed s = rdiv (s * 194384) (10 ^ 5) := by
  have e : cfg.knotsScale.printed s = rdiv (s * 194384 * 10 ^ 2) (100 * 100000) := rfl
  rw [e, show 100 * 100000 = 10 ^ 5 * 10 ^ 2 by norm_num, rdiv_mul_right _ _ _ (by norm_num)]

/-- Hundredths of a kilometre per hour, in the spec's form (R107, R180). -/
theorem kmhScale_printed (s : Nat) : cfg.kmhScale.printed s = rdiv (s * 36) 10 := by
  have e : cfg.kmhScale.printed s = rdiv (s * 36 * 10 ^ 2) (100 * 10) := rfl
  rw [e, show 100 * 10 = 10 * 10 ^ 2 by norm_num, rdiv_mul_right _ _ _ (by norm_num)]

/-- Raw heading, in the spec's form (R108, R217). -/
theorem angleScale_raw (n k : Nat) : cfg.angleScale.raw n k = rdiv (n * 10 ^ 8) (572958 * 10 ^ k) := rfl

/-- Raw depth, in the spec's form (R108, R217). -/
theorem depthScale_raw (n k : Nat) : cfg.depthScale.raw n k = rdiv (n * 100) (10 ^ k) := by
  rw [← Nat.one_mul (10 ^ k)]
  rfl

/-- The identifier as a number (R98, R219). -/
theorem composeId_toNat (p : BitVec 3) (g : BitVec 18) (a : Byte) :
    (composeId p g a).toNat = p.toNat * 2 ^ 26 + g.toNat * 2 ^ 8 + a.toNat := by
  simp only [composeId, BitVec.toNat_append]
  have := a.isLt
  have := g.isLt
  rw [← Nat.shiftLeft_add_eq_or_of_lt (by omega), ← Nat.shiftLeft_add_eq_or_of_lt (by omega), Nat.shiftLeft_eq,
    Nat.shiftLeft_eq]
  omega

theorem decDigitsFuel_length_pos (fuel n : Nat) : 1 ≤ (decDigitsFuel fuel n).length := by
  cases fuel with
  | zero => simp [decDigitsFuel]
  | succ f => simp only [decDigitsFuel]; split <;> simp

/-- A number below `10^k` prints at most `k` digits. -/
theorem decDigitsFuel_length_le (fuel n k : Nat) (hk : 1 ≤ k) (h : n < 10 ^ k) : (decDigitsFuel fuel n).length ≤ k := by
  induction fuel generalizing n k with
  | zero => simpa [decDigitsFuel] using hk
  | succ fuel ih =>
    simp only [decDigitsFuel]
    split
    · simpa using hk
    · rename_i h10
      obtain ⟨j, rfl⟩ : ∃ j, k = j + 1 := ⟨k - 1, by omega⟩
      have hj : 1 ≤ j := by
        rcases Nat.eq_zero_or_pos j with rfl | hj
        · simp at h; omega
        · exact hj
      have := ih (n / 10) j hj (by rw [Nat.div_lt_iff_lt_mul (by norm_num)]; rwa [pow_succ] at h)
      simp
      omega

@[simp] theorem fracDigits_length (p n : Nat) : (fracDigits p n).length = p := by
  induction p generalizing n with
  | zero => rfl
  | succ p ih => simp [fracDigits, ih]

/-- Upper bound of the length of a printed fixed-point number. -/
theorem fix_length_le (n p k : Nat) (hk : 1 ≤ k) (h : n < 10 ^ (k + p)) : (fix n p).length ≤ k + 1 + p := by
  have hd : n / 10 ^ p < 10 ^ k := by
    rw [Nat.div_lt_iff_lt_mul (by positivity), ← pow_add]
    exact h
  have := decDigitsFuel_length_le (n / 10 ^ p).log2 _ k hk hd
  simp only [fix, decDigits, List.length_append, List.length_cons, List.length_nil, fracDigits_length]
  omega

/-- Lower bound of the length of a printed fixed-point number. -/
theorem fix_length_ge (n p : Nat) : 2 + p ≤ (fix n p).length := by
  have := decDigitsFuel_length_pos (n / 10 ^ p).log2 (n / 10 ^ p)
  simp only [fix, decDigits, List.length_append, List.length_cons, List.length_nil, fracDigits_length]
  omega

/-- A decimal digit is no delimiter. -/
theorem bodyOk_decDigit (n : Nat) : Machine.bodyOk [decDigit (n % 10)] = true := by
  have h : ∀ d : Fin 10, Machine.bodyOk [decDigit d] = true := by decide
  exact h ⟨n % 10, Nat.mod_lt _ (by norm_num)⟩

@[simp] theorem bodyOk_append (a b : List Byte) : Machine.bodyOk (a ++ b) = (Machine.bodyOk a && Machine.bodyOk b) := by
  simp [Machine.bodyOk]

theorem bodyOk_decDigitsFuel (fuel n : Nat) : Machine.bodyOk (decDigitsFuel fuel n) = true := by
  induction fuel generalizing n with
  | zero => exact bodyOk_decDigit n
  | succ fuel ih =>
    simp only [decDigitsFuel]
    split
    · rename_i h
      simpa [Nat.mod_eq_of_lt h] using bodyOk_decDigit n
    · rw [bodyOk_append, ih, bodyOk_decDigit]
      rfl

theorem bodyOk_fracDigits (p n : Nat) : Machine.bodyOk (fracDigits p n) = true := by
  induction p generalizing n with
  | zero => rfl
  | succ p ih => simp only [fracDigits, bodyOk_append, ih, bodyOk_decDigit, Bool.and_self]

/-- A printed fixed-point number holds no delimiter (R133, R176). -/
theorem bodyOk_fix (n p : Nat) : Machine.bodyOk (fix n p) = true := by
  simp only [fix, decDigits, bodyOk_append, bodyOk_decDigitsFuel, bodyOk_fracDigits, Bool.and_true, Bool.true_and]
  decide

@[simp] theorem csGenBytes_length (body : List Byte) : (csGenBytes body).length = body.length + 6 := by
  simp [csGenBytes, hex2]

@[simp] theorem decodeByte_cr : decodeByte chCR = .rxCr := rfl

@[simp] theorem decodeByte_lf : decodeByte chLF = .rxLf := rfl

theorem decodeByte_data (b : Byte) (h1 : b ≠ chCR) (h2 : b ≠ chLF) : decodeByte b = .rxData b := by
  simp only [decodeByte, if_neg h1, if_neg h2]

/-- The three BYTE classes (R91). -/
theorem byte_class (b : Byte) : b = chCR ∨ b = chLF ∨ (b ≠ chCR ∧ b ≠ chLF) := by
  by_cases h1 : b = chCR
  · exact .inl h1
  · by_cases h2 : b = chLF
    · exact .inr (.inl h2)
    · exact .inr (.inr ⟨h1, h2⟩)

/-- The counter never falls (R36). -/
theorem le_satInc (c : BitVec 32) : c.toNat ≤ (satInc c).toNat := by
  have := c.isLt
  simp only [satInc, cfg, BitVec.toNat_ofNat]
  omega

end Sys2Proof
end

