-- ==== Sys2Proof/Laws/State.lean ====
section
/-! SUPPORT. One lemma per field per named update of the state, each true by rfl, and the views of the state
(`rcur`, `qcount`, `cphase`, `olen`) in terms of its fields. -/

namespace Sys2Proof.Machine

@[simp] theorem raise_rbuf (e : Event) (s : State) : (raise e s).rbuf = s.rbuf := rfl
@[simp] theorem raise_queue (e : Event) (s : State) : (raise e s).queue = s.queue := rfl
@[simp] theorem raise_qhead (e : Event) (s : State) : (raise e s).qhead = s.qhead := rfl
@[simp] theorem raise_bpCount (e : Event) (s : State) : (raise e s).bpCount = s.bpCount := rfl
@[simp] theorem raise_cur (e : Event) (s : State) : (raise e s).cur = s.cur := rfl
@[simp] theorem raise_obuf (e : Event) (s : State) : (raise e s).obuf = s.obuf := rfl
@[simp] theorem raise_serTx (e : Event) (s : State) : (raise e s).serTx = s.serTx := rfl
@[simp] theorem raise_busTx (e : Event) (s : State) : (raise e s).busTx = s.busTx := rfl
@[simp] theorem raise_diag (e : Event) (s : State) : (raise e s).diag = s.diag ++ [e] := rfl
@[simp] theorem raise_inputs (e : Event) (s : State) : (raise e s).inputs = s.inputs := rfl
@[simp] theorem raise_ret (e : Event) (s : State) : (raise e s).ret = s.ret := rfl
@[simp] theorem raise_freeCtr (e : Event) (s : State) : (raise e s).freeCtr = s.freeCtr := rfl

@[simp] theorem endExec_rbuf (s : State) : (endExec s).rbuf = s.rbuf := rfl
@[simp] theorem endExec_queue (s : State) : (endExec s).queue = s.queue := rfl
@[simp] theorem endExec_qhead (s : State) : (endExec s).qhead = s.qhead := rfl
@[simp] theorem endExec_bpCount (s : State) : (endExec s).bpCount = s.bpCount := rfl
@[simp] theorem endExec_cur (s : State) : (endExec s).cur = none := rfl
@[simp] theorem endExec_obuf (s : State) : (endExec s).obuf = s.obuf := rfl
@[simp] theorem endExec_serTx (s : State) : (endExec s).serTx = s.serTx := rfl
@[simp] theorem endExec_busTx (s : State) : (endExec s).busTx = s.busTx := rfl
@[simp] theorem endExec_diag (s : State) : (endExec s).diag = s.diag := rfl
@[simp] theorem endExec_inputs (s : State) : (endExec s).inputs = s.inputs := rfl
@[simp] theorem endExec_ret (s : State) : (endExec s).ret = s.ret := rfl
@[simp] theorem endExec_freeCtr (s : State) : (endExec s).freeCtr = s.freeCtr := rfl

@[simp] theorem emitSerial_rbuf (out : List Byte) (s : State) : (emitSerial out s).rbuf = s.rbuf := rfl
@[simp] theorem emitSerial_queue (out : List Byte) (s : State) : (emitSerial out s).queue = s.queue := rfl
@[simp] theorem emitSerial_qhead (out : List Byte) (s : State) : (emitSerial out s).qhead = s.qhead := rfl
@[simp] theorem emitSerial_bpCount (out : List Byte) (s : State) : (emitSerial out s).bpCount = s.bpCount := rfl
@[simp] theorem emitSerial_cur (out : List Byte) (s : State) : (emitSerial out s).cur = s.cur := rfl
@[simp] theorem emitSerial_obuf (out : List Byte) (s : State) : (emitSerial out s).obuf = s.obuf := rfl
@[simp] theorem emitSerial_serTx (out : List Byte) (s : State) : (emitSerial out s).serTx = s.serTx ++ out := rfl
@[simp] theorem emitSerial_busTx (out : List Byte) (s : State) : (emitSerial out s).busTx = s.busTx := rfl
@[simp] theorem emitSerial_diag (out : List Byte) (s : State) : (emitSerial out s).diag = s.diag := rfl
@[simp] theorem emitSerial_inputs (out : List Byte) (s : State) : (emitSerial out s).inputs = s.inputs := rfl
@[simp] theorem emitSerial_ret (out : List Byte) (s : State) : (emitSerial out s).ret = s.ret := rfl
@[simp] theorem emitSerial_freeCtr (out : List Byte) (s : State) : (emitSerial out s).freeCtr = s.freeCtr := rfl

@[simp] theorem scrambleObuf_rbuf (s : State) : (scrambleObuf s).rbuf = s.rbuf := rfl
@[simp] theorem scrambleObuf_queue (s : State) : (scrambleObuf s).queue = s.queue := rfl
@[simp] theorem scrambleObuf_qhead (s : State) : (scrambleObuf s).qhead = s.qhead := rfl
@[simp] theorem scrambleObuf_bpCount (s : State) : (scrambleObuf s).bpCount = s.bpCount := rfl
@[simp] theorem scrambleObuf_cur (s : State) : (scrambleObuf s).cur = s.cur := rfl
@[simp] theorem scrambleObuf_obuf (s : State) : (scrambleObuf s).obuf = (List.range s.obuf.length).map (Config.freeByte s.freeCtr) := rfl
@[simp] theorem scrambleObuf_serTx (s : State) : (scrambleObuf s).serTx = s.serTx := rfl
@[simp] theorem scrambleObuf_busTx (s : State) : (scrambleObuf s).busTx = s.busTx := rfl
@[simp] theorem scrambleObuf_diag (s : State) : (scrambleObuf s).diag = s.diag := rfl
@[simp] theorem scrambleObuf_inputs (s : State) : (scrambleObuf s).inputs = s.inputs := rfl
@[simp] theorem scrambleObuf_ret (s : State) : (scrambleObuf s).ret = s.ret := rfl
@[simp] theorem scrambleObuf_freeCtr (s : State) : (scrambleObuf s).freeCtr = s.freeCtr + 1 := rfl

@[simp] theorem rcur_eq (s : State) : s.rcur = s.rbuf.length := rfl

@[simp] theorem qcount_eq (s : State) : s.qcount = s.queue.length := rfl

@[simp] theorem olen_eq (s : State) : s.olen = s.obuf.length := rfl

/-- The consumer is IDLE exactly when `cur` holds no message (R44 f). -/
@[simp] theorem cphase_eq_idle (s : State) : s.cphase = .idle ↔ s.cur = none := by
  cases h : s.cur <;> simp [State.cphase, h]

/-- The consumer is BUSY exactly when `cur` holds a message (R44 f). -/
@[simp] theorem cphase_eq_busy (s : State) : s.cphase = .busy ↔ s.cur ≠ none := by
  cases h : s.cur <;> simp [State.cphase, h]

/-- Slot `(qhead + k) mod 32` holds the message at distance `k` (R24). -/
theorem qmem_at (s : State) (k : Fin 32) : s.qmem (s.qhead + k) = s.queue[k.val]? := by
  simp [State.qmem]

end Sys2Proof.Machine
end

