-- ==== Sys2Proof/Laws/Ops.lean ====
section
/-! SUPPORT. One lemma per shared operation that says everything it can do; later proofs cite these. -/

namespace Sys2Proof.Machine

/-- Everything an enqueue can do (R252). -/
inductive Enqueued (m : Msg) (src : Producer) (s : State) : State → Prop
  | kept (room : s.queue.length < 32) : Enqueued m src s { s with queue := s.queue ++ [m] }
  | dropped (full : 32 ≤ s.queue.length) :
    Enqueued m src s { s with bpCount := satInc s.bpCount, diag := s.diag ++ [.backpressure src] }

theorem enqueue_effect (m : Msg) (src : Producer) (s : State) : Enqueued m src s (enqueue m src s) := by
  by_cases h : s.queue.length < 32
  · have e : enqueue m src s = { s with queue := s.queue ++ [m] } := by simp [enqueue, cfg, h]
    exact e ▸ .kept h
  · have e : enqueue m src s = { s with bpCount := satInc s.bpCount, diag := s.diag ++ [.backpressure src] } := by
      simp [enqueue, cfg, h, raise]
    exact e ▸ .dropped (by omega)

theorem dequeue_enabled (s : State) (m : Msg) (rest : List Msg) (hc : s.cur = none) (hq : s.queue = m :: rest) :
    dequeue s = { s with cur := some m, queue := rest, qhead := s.qhead + 1 } := by
  simp [dequeue, hc, hq]

theorem dequeue_waits (s : State) (h : s.cur ≠ none ∨ s.queue = []) : dequeue s = s := by
  rcases h with h | h
  · obtain ⟨m, hm⟩ := Option.ne_none_iff_exists'.1 h
    simp [dequeue, hm]
  · cases hc : s.cur <;> simp [dequeue, h, hc]

theorem storeOut_fits (out : List Byte) (s : State) (h : out.length ≤ 82) :
    storeOut out s = ({ s with obuf := out }, some out) := by
  simp [storeOut, cfg, Nat.not_lt.2 h]

/-- The unreachable arm (R182): one event, `obuf` free, `olen` unchanged. -/
theorem storeOut_overflows (out : List Byte) (s : State) (h : 82 < out.length) :
    storeOut out s = (raise (.malformedInput .outputOverflow) (scrambleObuf s), none) := by
  simp [storeOut, cfg, h]

@[simp] theorem scrambleObuf_olen (s : State) : (scrambleObuf s).olen = s.olen := by simp

theorem submitBus_ok (f : Frame) (s : State) : submitBus f .ok s = { s with busTx := s.busTx ++ [(f, .ok)] } := rfl

theorem submitBus_timeout (f : Frame) (s : State) :
    submitBus f .timeout s =
      { s with busTx := s.busTx ++ [(f, .timeout)], diag := s.diag ++ [.transportFailure .timeout] } := rfl

theorem submitBus_error (f : Frame) (s : State) :
    submitBus f .error s =
      { s with busTx := s.busTx ++ [(f, .error)], diag := s.diag ++ [.transportFailure .error] } := rfl

/-- The spaces as three bounds (R60, R61). -/
theorem wf_iff (s : State) :
    Memory.wf s = true ↔ s.rbuf.length ≤ 81 ∧ s.queue.length ≤ 32 ∧ s.obuf.length ≤ 82 := by
  simp only [Memory.wf, Bool.and_eq_true, decide_eq_true_eq, and_assoc]
  exact Iff.rfl

theorem reset_wf : Memory.wf State.reset = true := by decide

theorem raise_keeps_wf (e : Event) (s : State) (h : Memory.wf s = true) : Memory.wf (raise e s) = true := h

theorem endExec_keeps_wf (s : State) (h : Memory.wf s = true) : Memory.wf (endExec s) = true := h

theorem emitSerial_keeps_wf (out : List Byte) (s : State) (h : Memory.wf s = true) :
    Memory.wf (emitSerial out s) = true := h

theorem enqueue_keeps_wf (m : Msg) (src : Producer) (s : State) (h : Memory.wf s = true) :
    Memory.wf (enqueue m src s) = true := by
  have he := enqueue_effect m src s
  generalize enqueue m src s = u at he ⊢
  cases he with
  | kept room =>
    rw [wf_iff] at *
    simp
    omega
  | dropped full => exact h

theorem dequeue_keeps_wf (s : State) (h : Memory.wf s = true) : Memory.wf (dequeue s) = true := by
  by_cases hw : s.cur ≠ none ∨ s.queue = []
  · rw [dequeue_waits s hw]; exact h
  · simp only [ne_eq, not_or, not_not] at hw
    obtain ⟨m, q, hq⟩ := List.exists_cons_of_ne_nil hw.2
    rw [dequeue_enabled s m q hw.1 hq]
    rw [wf_iff] at *
    simp [hq] at h ⊢
    omega

theorem storeOut_keeps_wf (out : List Byte) (s : State) (h : Memory.wf s = true) :
    Memory.wf (storeOut out s).1 = true := by
  rw [wf_iff] at *
  by_cases ho : out.length ≤ 82
  · rw [storeOut_fits out s ho]; simp; omega
  · rw [storeOut_overflows out s (by omega)]; simp; omega

theorem submitBus_keeps_wf (f : Frame) (r : BusAnswer) (s : State) (h : Memory.wf s = true) :
    Memory.wf (submitBus f r s) = true := by
  cases r <;> exact h

end Sys2Proof.Machine
end

