-- ==== Sys2Proof/Laws/PerInstr.lean ====
section
/-! SUPPORT. Statements made for each operation. `Format`: the encoded form of an operation has the format of its row in
opcode_table.json (R90, R104). -/

namespace Sys2Proof.Laws.Format

/-- The format names of opcode_table.json. -/
inductive Name where
  | byte
  | frame
  | state
  | msg
  | canid
  | tag3
  | sub
  | reset
deriving DecidableEq, Repr

/-- The format of an encoded form. -/
def ofWord : OpWord → Name
  | .byte _ => .byte
  | .frame _ => .frame
  | .state => .state
  | .msg _ _ => .msg
  | .canid _ => .canid
  | .tag3 _ => .tag3
  | .gen _ => .sub
  | .chk _ => .sub
  | .reset => .reset

/-- The "format" of the operation's row in opcode_table.json. -/
def ofRow : Instr → Name
  | .rxCr => .byte
  | .rxLf => .byte
  | .rxData _ => .byte
  | .brxEnq _ => .frame
  | .conDeq => .state
  | .dispatchFromBus => .msg
  | .dispatchFromSerial _ => .msg
  | .decHdt _ => .canid
  | .decDpt _ => .canid
  | .decVtg _ => .canid
  | .decUnrec _ => .canid
  | .encHdt _ _ => .tag3
  | .encDpt _ _ => .tag3
  | .encUnrec _ => .tag3
  | .csGen _ => .sub
  | .csChk _ => .sub
  | .reset => .reset

/-- The encoded form has the format of the row. -/
def Statement (i : Instr) : Prop := ofWord (encode i) = ofRow i

theorem rxCr : Statement .rxCr := rfl
theorem rxLf : Statement .rxLf := rfl
theorem rxData (b : Byte) : Statement (.rxData b) := rfl
theorem brxEnq (f : Frame) : Statement (.brxEnq f) := rfl
theorem conDeq : Statement .conDeq := rfl
theorem dispatchFromBus : Statement .dispatchFromBus := rfl
theorem dispatchFromSerial (r : BusAnswer) : Statement (.dispatchFromSerial r) := rfl
theorem decHdt (f : Frame) : Statement (.decHdt f) := rfl
theorem decDpt (f : Frame) : Statement (.decDpt f) := rfl
theorem decVtg (f : Frame) : Statement (.decVtg f) := rfl
theorem decUnrec (f : Frame) : Statement (.decUnrec f) := rfl
theorem encHdt (buf : List Byte) (bodyEnd : Nat) : Statement (.encHdt buf bodyEnd) := rfl
theorem encDpt (buf : List Byte) (bodyEnd : Nat) : Statement (.encDpt buf bodyEnd) := rfl
theorem encUnrec (buf : List Byte) : Statement (.encUnrec buf) := rfl
theorem csGen (body : List Byte) : Statement (.csGen body) := rfl
theorem csChk (buf : List Byte) : Statement (.csChk buf) := rfl
theorem reset : Statement .reset := rfl

end Sys2Proof.Laws.Format
end

