-- ==== Sys2Proof/Laws/Translate.lean ====
section
/-! SUPPORT. What a translation can do: the decoders, the encoders and the two dispatch arms. -/

namespace Sys2Proof.Machine

theorem rawHeading_eq (f : Frame) : rawHeading f = f.data[1].toNat + 256 * f.data[2].toNat := by
  have h : rawHeading f = memRead f.data 1 2 (by decide) := rfl
  simp [h, memRead]

theorem rawDepth_eq (f : Frame) :
    rawDepth f =
      f.data[1].toNat + 256 * f.data[2].toNat + 65536 * f.data[3].toNat + 16777216 * f.data[4].toNat := by
  have h : rawDepth f = memRead f.data 1 4 (by decide) := rfl
  simp [h, memRead]
  omega

theorem rawCourse_eq (f : Frame) : rawCourse f = f.data[2].toNat + 256 * f.data[3].toNat := by
  have h : rawCourse f = memRead f.data 2 2 (by decide) := rfl
  simp [h, memRead]

theorem rawSpeed_eq (f : Frame) : rawSpeed f = f.data[4].toNat + 256 * f.data[5].toNat := by
  have h : rawSpeed f = memRead f.data 4 2 (by decide) := rfl
  simp [h, memRead]

theorem rawHeading_lt (f : Frame) : rawHeading f < 2 ^ 16 := memRead_lt f.data 1 2 (by decide)

theorem rawDepth_lt (f : Frame) : rawDepth f < 2 ^ 32 := memRead_lt f.data 1 4 (by decide)

theorem rawCourse_lt (f : Frame) : rawCourse f < 2 ^ 16 := memRead_lt f.data 2 2 (by decide)

theorem rawSpeed_lt (f : Frame) : rawSpeed f < 2 ^ 16 := memRead_lt f.data 4 2 (by decide)

/-- A raw angle is below 1000 degrees in tenths. -/
theorem angle_printed_lt (h : Nat) (hh : h < 2 ^ 16) : cfg.angleScale.printed h < 10 ^ (3 + 1) := by
  rw [angleScale_printed, rdiv]
  omega

theorem renderAngle_eq (h : Nat) : cfg.renderAngle cfg.angleScale h = fix (rdiv (h * 572958) (10 ^ 7)) 1 := by
  rw [← angleScale_printed]
  rfl

theorem depthText_eq (d : Nat) : cfg.depthScale.text d = fix d 2 :=
  congrArg (fix · 2) (depthScale_printed d)

theorem knotsText_eq (s : Nat) : cfg.knotsScale.text s = fix (rdiv (s * 194384) (10 ^ 5)) 2 :=
  congrArg (fix · 2) (knotsScale_printed s)

theorem kmhText_eq (s : Nat) : cfg.kmhScale.text s = fix (rdiv (s * 36) 10) 2 :=
  congrArg (fix · 2) (kmhScale_printed s)

theorem renderAngle_length_le (h : Nat) (hh : h < 2 ^ 16) : (cfg.renderAngle cfg.angleScale h).length ≤ 5 :=
  fix_length_le (cfg.angleScale.printed h) 1 3 (by norm_num) (angle_printed_lt h hh)

theorem knots_length_le (s : Nat) (hs : s < 2 ^ 16) : (cfg.knotsScale.text s).length ≤ 7 := by
  rw [knotsText_eq]
  exact fix_length_le _ 2 4 (by norm_num) (by rw [rdiv]; omega)

theorem kmh_length_le (s : Nat) (hs : s < 2 ^ 16) : (cfg.kmhScale.text s).length ≤ 7 := by
  rw [kmhText_eq]
  exact fix_length_le _ 2 4 (by norm_num) (by rw [rdiv]; omega)

theorem hdtBody_ok (h : Nat) : bodyOk (hdtBody h) = true := by
  simp only [hdtBody, bodyOk_append, Bool.and_eq_true]
  exact ⟨⟨⟨by decide, by decide⟩, bodyOk_fix _ _⟩, by decide⟩

theorem dptBody_ok (d : Nat) : bodyOk (dptBody d) = true := by
  simp only [dptBody, bodyOk_append, Bool.and_eq_true]
  exact ⟨⟨⟨by decide, by decide⟩, bodyOk_fix _ _⟩, by decide⟩

theorem vtgBody_ok (c v : Nat) : bodyOk (vtgBody c v) = true := by
  have h : vtgBody c v = vtgBodyText cfg.talkerOut (fix (cfg.angleScale.printed c) 1)
      (fix (cfg.knotsScale.printed v) 2) (fix (cfg.kmhScale.printed v) 2) := rfl
  rw [h]
  simp only [vtgBodyText, bodyOk_append, bodyOk_fix, Bool.and_true, Bool.and_eq_true]
  decide

theorem hdt_fits (f : Frame) : (csGenBytes (hdtBody (rawHeading f))).length ≤ 82 := by
  have := renderAngle_length_le _ (rawHeading_lt f)
  simp only [csGenBytes_length, hdtBody, List.length_append]
  simp only [cfg, asc, List.length_map, List.length_cons, List.length_nil] at this ⊢
  omega

theorem dpt_fits (f : Frame) : (csGenBytes (dptBody (rawDepth f))).length ≤ 82 := by
  have hd := rawDepth_lt f
  have := fix_length_le (rawDepth f) 2 8 (by norm_num) (by norm_num; omega)
  simp only [csGenBytes_length, dptBody, depthText_eq, List.length_append]
  simp only [cfg, asc, List.length_map, List.length_cons, List.length_nil] at this ⊢
  omega

theorem vtg_fits (f : Frame) : (csGenBytes (vtgBody (rawCourse f) (rawSpeed f))).length ≤ 82 := by
  have h1 := renderAngle_length_le _ (rawCourse_lt f)
  have h2 := knots_length_le _ (rawSpeed_lt f)
  have h3 := kmh_length_le _ (rawSpeed_lt f)
  have hb (c v : Nat) : vtgBody c v = vtgBodyText cfg.talkerOut (cfg.renderAngle cfg.angleScale c)
      (cfg.knotsScale.text v) (cfg.kmhScale.text v) := rfl
  have ht : cfg.talkerOut.length = 2 := rfl
  simp only [csGenBytes_length, hb, vtgBodyText, List.length_append, ht]
  simp only [asc, List.length_map, List.length_cons, List.length_nil]
  omega

/-- Everything a lookup and its decoder can do (R173 to R185), by the frame alone: one event, or one generated sentence
in `obuf`. -/
theorem decodeFrame_cases (f : Frame) :
    (∃ e, ∀ s, decodeFrame f s = (raise e s, none)) ∨
      (∃ out, generated out ∧ ∀ s, decodeFrame f s = ({ s with obuf := out }, some out)) := by
  unfold decodeFrame
  split
  · by_cases h : f.dlc.toNat < 3
    · exact .inl ⟨.malformedInput .frameShort, fun s => by simp only [decHdt, show cfg.headingField.stop = 3 from rfl, if_pos h, raised]⟩
    · refine .inr ⟨_, ⟨_, hdtBody_ok _, rfl, hdt_fits f⟩, fun s => ?_⟩
      simp only [decHdt, show cfg.headingField.stop = 3 from rfl, if_neg h]
      exact storeOut_fits _ s (hdt_fits f)
  · by_cases h : f.dlc.toNat < 5
    · exact .inl ⟨.malformedInput .frameShort, fun s => by simp only [decDpt, show cfg.depthField.stop = 5 from rfl, if_pos h, raised]⟩
    · refine .inr ⟨_, ⟨_, dptBody_ok _, rfl, dpt_fits f⟩, fun s => ?_⟩
      simp only [decDpt, show cfg.depthField.stop = 5 from rfl, if_neg h]
      exact storeOut_fits _ s (dpt_fits f)
  · by_cases h : f.dlc.toNat < 6
    · exact .inl ⟨.malformedInput .frameShort, fun s => by simp only [decVtg, show max cfg.courseField.stop cfg.speedField.stop = 6 from rfl, if_pos h, raised]⟩
    · refine .inr ⟨_, ⟨_, vtgBody_ok _ _, rfl, vtg_fits f⟩, fun s => ?_⟩
      simp only [decVtg, show max cfg.courseField.stop cfg.speedField.stop = 6 from rfl, if_neg h]
      exact storeOut_fits _ s (vtg_fits f)
  · exact .inl ⟨.unrecognizedIdentifier .pgn, fun s => rfl⟩

/-- Everything the FromBus arm can do (R258), by the frame alone. -/
theorem dispatchFromBus_cases (f : Frame) :
    (∃ e, ∀ s, dispatchFromBus f s = raise e s) ∨
      (∃ out, generated out ∧ ∀ s, dispatchFromBus f s = { s with obuf := out, serTx := s.serTx ++ out }) := by
  by_cases hi : f.invariantOk = true
  · rcases decodeFrame_cases f with ⟨e, h⟩ | ⟨out, hl, h⟩
    · exact .inl ⟨e, fun s => by simp [dispatchFromBus, hi, h]⟩
    · exact .inr ⟨out, hl, fun s => by simp [dispatchFromBus, hi, h, emitSerial]⟩
  · exact .inl ⟨.malformedInput .frameInvariant, fun s => by simp [dispatchFromBus, hi]⟩

theorem hdtFrame_data (raw : Nat) :
    (hdtFrame raw).data =
      #v[0xFF#8, BitVec.ofNat 8 raw, BitVec.ofNat 8 (raw / 256), 0xFF#8, 0xFF#8, 0xFF#8, 0xFF#8, 0xFF#8] := rfl

theorem dptFrame_data (raw : Nat) :
    (dptFrame raw).data =
      #v[0xFF#8, BitVec.ofNat 8 raw, BitVec.ofNat 8 (raw / 256), BitVec.ofNat 8 (raw / 65536),
        BitVec.ofNat 8 (raw / 16777216), 0xFF#8, 0xFF#8, 0xFF#8] := by
  have h : (dptFrame raw).data =
      #v[0xFF#8, BitVec.ofNat 8 raw, BitVec.ofNat 8 (raw / 256), BitVec.ofNat 8 (raw / 256 / 256),
        BitVec.ofNat 8 (raw / 256 / 256 / 256), 0xFF#8, 0xFF#8, 0xFF#8] := rfl
  rw [h]
  simp only [Nat.div_div_eq_div_mul]

/-- An encoder's result is its frame or one event, by its operands alone. -/
theorem encResult_cases (build : Nat → Frame) (raw : Except MalReason Nat) :
    (∃ e, ∀ s, encResult build raw s = (raise e s, none)) ∨
      (∃ v, raw = .ok v ∧ ∀ s, encResult build raw s = (s, some (build v))) := by
  cases raw with
  | error r => exact .inl ⟨_, fun s => rfl⟩
  | ok v => exact .inr ⟨v, rfl, fun s => rfl⟩

/-- Everything the checks, the lookup and an encoder can do (R211 to R222), by the buffer alone: one event, or the frame
of a raw value with no state written. -/
theorem encodeSentence_cases (enforce : Bool) (buf : List Byte) :
    (∃ e, ∀ s, encodeSentence enforce buf s = (raise e s, none)) ∨
      (∃ f, (∃ v, f = hdtFrame v ∨ f = dptFrame v) ∧ ∀ s, encodeSentence enforce buf s = (s, some f)) := by
  unfold encodeSentence
  split
  · exact .inl ⟨_, fun s => rfl⟩
  · split
    · rcases encResult_cases hdtFrame _ with ⟨e, h⟩ | ⟨v, _, h⟩
      · exact .inl ⟨e, h⟩
      · exact .inr ⟨_, ⟨v, .inl rfl⟩, h⟩
    · rcases encResult_cases dptFrame _ with ⟨e, h⟩ | ⟨v, _, h⟩
      · exact .inl ⟨e, h⟩
      · exact .inr ⟨_, ⟨v, .inr rfl⟩, h⟩
    · exact .inl ⟨.unrecognizedIdentifier .tag, fun s => rfl⟩

/-- Everything the FromSerial arm can do (R259), by the buffer and ENV's answer alone. -/
theorem dispatchFromSerial_cases (enforce : Bool) (buf : List Byte) (r : BusAnswer) :
    (∃ e, ∀ s, dispatchFromSerial enforce buf r s = raise e s) ∨
      (∃ f ev, (∃ v, f = hdtFrame v ∨ f = dptFrame v) ∧ ev = submitEvents (some f) r ∧
        ∀ s, dispatchFromSerial enforce buf r s = { s with busTx := s.busTx ++ [(f, r)], diag := s.diag ++ ev }) := by
  rcases encodeSentence_cases enforce buf with ⟨e, h⟩ | ⟨f, hf, h⟩
  · exact .inl ⟨e, fun s => by simp [dispatchFromSerial, h]⟩
  · refine .inr ⟨f, _, hf, rfl, fun s => ?_⟩
    cases r <;> simp [dispatchFromSerial, h, submitBus, submitFailure, submitEvents, raise]

/-- Everything CON.EXEC can do to the state (R257 to R260), by the message and ENV's answer alone: `cur` is dead, at most
one generated sentence is written, at most one frame is submitted, at most one event is reported. -/
theorem conExec_cases (m : Msg) (r : BusAnswer) :
    ∃ (out : Option (List Byte)) (tx : List (Frame × BusAnswer)) (ev : List Event),
      (∀ o, out = some o → generated o) ∧ (∀ x ∈ tx, ∃ v, x.1 = hdtFrame v ∨ x.1 = dptFrame v) ∧ ev.length ≤ 1 ∧
        ∀ s : State, s.cur = some m →
          exec (decodeMsg (msgTag m) r) s = .next
            { s with
              cur := none
              obuf := out.getD s.obuf
              serTx := s.serTx ++ out.getD []
              busTx := s.busTx ++ tx
              diag := s.diag ++ ev } := by
  cases m with
  | fromBus f =>
    rcases dispatchFromBus_cases f with ⟨e, h⟩ | ⟨o, hl, h⟩
    · refine ⟨none, [], [e], by simp, by simp, by simp, fun s hs => ?_⟩
      simp [msgTag, decodeMsg, exec, execDispatchFromBus, hs, h, endExec, raise]
    · refine ⟨some o, [], [], by simpa using hl, by simp, by simp, fun s hs => ?_⟩
      simp [msgTag, decodeMsg, exec, execDispatchFromBus, hs, h, endExec]
  | fromSerial buf =>
    rcases dispatchFromSerial_cases cfg.csEnforce buf r with ⟨e, h⟩ | ⟨f, ev, hf, hev, h⟩
    · refine ⟨none, [], [e], by simp, by simp, by simp, fun s hs => ?_⟩
      simp [msgTag, decodeMsg, exec, execDispatchFromSerial, hs, h, endExec, raise]
    · refine ⟨none, [(f, r)], ev, by simp, by simpa using hf, ?_, fun s hs => ?_⟩
      · subst hev; cases r <;> simp [submitEvents]
      · simp [msgTag, decodeMsg, exec, execDispatchFromSerial, hs, h, endExec]

end Sys2Proof.Machine
end

