-- ==== Sys2Proof/Laws/Step.lean ====
section
/-! SUPPORT. What a step can do, said once (`StepEffect`), and runs. -/

namespace Sys2Proof.Machine

/-- Everything one step can do, by the line it takes. -/
inductive StepEffect (s : State) : State → Prop
  /-- No line: every agent waits. -/
  | noLine (h : s.inputs = []) : StepEffect s s
  /-- RX.CR. -/
  | cr (rest : List Token) (h : s.inputs = .rx chCR :: rest) : StepEffect s { s with inputs := rest }
  /-- RX.LF that emits. -/
  | lfEmit (rest : List Token) (h : s.inputs = .rx chLF :: rest) (hd : s.rbuf.head? = some chDollar) (u : State)
    (hu : Enqueued (.fromSerial s.rbuf) .ser { s with inputs := rest } u) : StepEffect s { u with rbuf := [] }
  /-- RX.LF that discards. -/
  | lfDiscard (rest : List Token) (h : s.inputs = .rx chLF :: rest) (hd : s.rbuf.head? ≠ some chDollar) :
    StepEffect s { s with inputs := rest, rbuf := [] }
  /-- RX.DATA with room. -/
  | data (rest : List Token) (b : Byte) (h : s.inputs = .rx b :: rest) (h1 : b ≠ chCR) (h2 : b ≠ chLF)
    (room : s.rbuf.length < 81) : StepEffect s { s with inputs := rest, rbuf := s.rbuf ++ [b] }
  /-- RX.DATA on a full buffer. -/
  | dataFull (rest : List Token) (b : Byte) (h : s.inputs = .rx b :: rest) (h1 : b ≠ chCR) (h2 : b ≠ chLF)
    (full : 81 ≤ s.rbuf.length) : StepEffect s { s with inputs := rest }
  /-- BRX.ENQ. -/
  | can (rest : List Token) (f : Frame) (h : s.inputs = .can f :: rest) (u : State)
    (hu : Enqueued (.fromBus f) .bus { s with inputs := rest } u) : StepEffect s u
  /-- CON.DEQ not enabled. -/
  | deqWait (rest : List Token) (h : s.inputs = .deq :: rest) (hw : s.cur ≠ none ∨ s.queue = []) :
    StepEffect s { s with inputs := rest }
  /-- CON.DEQ. -/
  | deq (rest : List Token) (h : s.inputs = .deq :: rest) (m : Msg) (q : List Msg) (hc : s.cur = none)
    (hq : s.queue = m :: q) :
    StepEffect s { s with inputs := rest, cur := some m, queue := q, qhead := s.qhead + 1 }
  /-- CON.EXEC not enabled. -/
  | execWait (rest : List Token) (r : BusAnswer) (h : s.inputs = .exec r :: rest) (hc : s.cur = none) :
    StepEffect s { s with inputs := rest }
  /-- CON.EXEC. -/
  | exec (rest : List Token) (r : BusAnswer) (h : s.inputs = .exec r :: rest) (m : Msg) (hc : s.cur = some m)
    (out : Option (List Byte)) (tx : List (Frame × BusAnswer)) (ev : List Event)
    (ho : ∀ o, out = some o → generated o) (ht : ∀ x ∈ tx, ∃ v, x.1 = hdtFrame v ∨ x.1 = dptFrame v)
    (he : ev.length ≤ 1) :
    StepEffect s
      { s with
        inputs := rest
        cur := none
        obuf := out.getD s.obuf
        serTx := s.serTx ++ out.getD []
        busTx := s.busTx ++ tx
        diag := s.diag ++ ev }
  /-- RESET. -/
  | reset (rest : List Token) (h : s.inputs = .reset :: rest) :
    StepEffect s { State.reset with inputs := rest, freeCtr := s.freeCtr }

/-- A step answers a next state, and what it did is one of these. -/
theorem step_effect (s : State) : ∃ t, step s = .next t ∧ StepEffect s t := by
  cases h : s.inputs with
  | nil => exact ⟨s, by simp [step, h], .noLine h⟩
  | cons x rest =>
    cases x with
    | rx b =>
      have hs : step s = Sys2Proof.Machine.exec (decodeByte b) { s with inputs := rest } := by
        simp [step, h, fetchWord, decode]
      rcases byte_class b with rfl | rfl | ⟨h1, h2⟩
      · exact ⟨_, hs, .cr rest h⟩
      · by_cases hd : s.rbuf.head? = some chDollar
        · refine ⟨_, ?_, .lfEmit rest h hd _ (enqueue_effect _ _ _)⟩
          simp [hs, Sys2Proof.Machine.exec, execRxLf, hd]
        · refine ⟨_, ?_, .lfDiscard rest h hd⟩
          simp [hs, Sys2Proof.Machine.exec, execRxLf, hd]
      · by_cases hl : s.rbuf.length < 81
        · refine ⟨_, ?_, .data rest b h h1 h2 hl⟩
          simp [hs, decodeByte_data b h1 h2, Sys2Proof.Machine.exec, execRxData, cfg, hl]
        · refine ⟨_, ?_, .dataFull rest b h h1 h2 (by omega)⟩
          simp [hs, decodeByte_data b h1 h2, Sys2Proof.Machine.exec, execRxData, cfg, hl]
    | can f =>
      refine ⟨_, ?_, .can rest f h _ (enqueue_effect _ _ _)⟩
      simp [step, h, fetchWord, decode, Sys2Proof.Machine.exec, execBrxEnq]
    | deq =>
      have hs : step s = .next (dequeue { s with inputs := rest }) := by
        simp [step, h, fetchWord, decode, Sys2Proof.Machine.exec, execConDeq]
      by_cases hw : s.cur ≠ none ∨ s.queue = []
      · refine ⟨_, ?_, .deqWait rest h hw⟩
        rw [hs, dequeue_waits { s with inputs := rest } hw]
      · simp only [ne_eq, not_or, not_not] at hw
        obtain ⟨m, q, hq⟩ := List.exists_cons_of_ne_nil hw.2
        refine ⟨_, ?_, .deq rest h m q hw.1 hq⟩
        rw [hs, dequeue_enabled { s with inputs := rest } m q hw.1 hq]
    | exec r =>
      rcases Option.eq_none_or_eq_some s.cur with hc | ⟨m, hc⟩
      · exact ⟨_, by simp [step, h, fetchWord, hc], .execWait rest r h hc⟩
      · obtain ⟨out, tx, ev, ho, ht, he, hx⟩ := conExec_cases m r
        have hs : step s = Sys2Proof.Machine.exec (decodeMsg (msgTag m) r) { s with inputs := rest } := by
          simp [step, h, fetchWord, decode, hc]
        exact ⟨_, hs.trans (hx _ hc), .exec rest r h m hc out tx ev ho ht he⟩
    | reset =>
      refine ⟨_, ?_, .reset rest h⟩
      simp [step, h, fetchWord, decode, Sys2Proof.Machine.exec, execReset]

/-- Inversion: what a step that answered `t` did. -/
theorem step_inversion {s t : State} (h : step s = .next t) : StepEffect s t := by
  obtain ⟨u, hu, he⟩ := step_effect s
  rw [hu] at h
  cases h
  exact he

theorem run_zero (s : State) : run 0 s = .next s := rfl

theorem run_succ_of_step {s t : State} (n : Nat) (h : step s = .next t) : run (n + 1) s = run n t := by
  simp only [run, h]

theorem run_one (s : State) : run 1 s = step s := by
  obtain ⟨t, ht, _⟩ := step_effect s
  rw [run_succ_of_step 0 ht, run_zero, ht]

/-- A run of `m + n` steps is a run of `m` steps and then one of `n`. -/
theorem run_add {m : Nat} (n : Nat) {s t : State} (h : run m s = .next t) : run (m + n) s = run n t := by
  induction m generalizing s with
  | zero => simp only [run_zero, Host.Outcome.next.injEq] at h; simp [h]
  | succ m ih =>
    obtain ⟨u, hu, _⟩ := step_effect s
    rw [run_succ_of_step m hu] at h
    rw [Nat.succ_add, run_succ_of_step (m + n) hu]
    exact ih h

end Sys2Proof.Machine
end

