-- ==== Sys2Proof/Tests/Slice0.lean ====
section
/-! SUPPORT. The model's own tests. Expected values come from spec/95_test_vectors.md (named V-…, S…, P…) and from the
encodings of spec/30_encoding.md, never from a run of the model. -/

namespace Sys2Proof.Tests

open Sys2Proof.Machine

/-! ### Builders -/

/-- The ASCII bytes of a string. -/
def str (s : String) : List Byte := asc s.toList

/-- An extended frame. -/
def ext (id : BitVec 29) (dlc : BitVec 4) (data : Vector Byte 8) : Frame := { id, ide := true, dlc, data }

/-- V-DEC-1: PGN 127250, raw heading 3000. -/
def frameHeading : Frame := ext 0x09F11223#29 8 #v[0xFF, 0xB8, 0x0B, 0xFF, 0x7F, 0xFF, 0x7F, 0xFD]

/-- V-DEC-10: PGN 128267, raw depth 250. -/
def frameDepth : Frame := ext 0x0DF50B23#29 8 #v[0xFF, 0xFA, 0x00, 0x00, 0x00, 0xFF, 0x7F, 0xFF]

/-- V-DEC-16: PGN 129026, course 15708, speed 258. -/
def frameCourse : Frame := ext 0x09F80223#29 8 #v[0xFF, 0xFC, 0x5C, 0x3D, 0x02, 0x01, 0xFF, 0xFF]

/-- V-DEC-20: PGN 129025, in no table. -/
def frameUnknown : Frame := ext 0x09F80123#29 8 (Vector.replicate 8 0)

/-- V-DEC-22: a standard frame. -/
def frameStandard : Frame := { id := 0x123#29, ide := false, dlc := 8, data := #v[0, 0xAE, 0x1E, 0, 0, 0, 0, 0] }

/-- The reset state with `n` queued frames. -/
def queued (n : Nat) : State := { State.reset with queue := List.replicate n (.fromBus frameDepth) }

/-- The reset state with a pending line. -/
def pending (line : List Byte) : State := { State.reset with rbuf := line }

/-- The reset state with a message in `cur`. -/
def holding (m : Msg) : State := { State.reset with cur := some m }

/-- The reset state with these lines to come. -/
def lines (l : List Token) : State := { State.reset with inputs := l }

/-- The outcome is a next state with the property. -/
def next (o : Host.Outcome State Fault Refusal) (p : State → Bool) : Bool :=
  match o with
  | .next t => p t
  | .fault _ => false
  | .refused _ => false

/-! ### WellFormed refuses ill-formed operations -/

theorem test_wf_rxData : (Instr.rxData 0x0D#8).wf = false ∧ (Instr.rxData 0x0A#8).wf = false ∧
    (Instr.rxData 0x24#8).wf = true := by decide

theorem test_wf_decoders_refuse_broken_frames : (Instr.decHdt { frameHeading with ide := false }).wf = false ∧
    (Instr.decHdt { frameHeading with dlc := 9 }).wf = false ∧ (Instr.decHdt frameHeading).wf = true := by decide

theorem test_wf_decoders_refuse_another_pgn : (Instr.decHdt frameDepth).wf = false ∧
    (Instr.decDpt frameCourse).wf = false ∧ (Instr.decVtg frameUnknown).wf = false ∧
    (Instr.decUnrec frameHeading).wf = false := by decide

theorem test_wf_decoders_accept : (Instr.decDpt frameDepth).wf = true ∧ (Instr.decVtg frameCourse).wf = true ∧
    (Instr.decUnrec frameUnknown).wf = true := by decide

theorem test_wf_encoders_refuse_failed_checks : (Instr.encHdt (str "HEHDT,045.0,T") 13).wf = false ∧
    (Instr.encDpt (str "$") 1).wf = false ∧ (Instr.encHdt (str "$HEHDT,045.0,T*1B") 14).wf = false ∧
    (Instr.encUnrec (str "$GPGGA,1,2*00")).wf = false := by decide

theorem test_wf_encoders_refuse_another_tag_or_end : (Instr.encHdt (str "$SDDPT,2.50") 11).wf = false ∧
    (Instr.encDpt (str "$HEHDT,1,T") 10).wf = false ∧ (Instr.encHdt (str "$HEHDT,1,T") 9).wf = false ∧
    (Instr.encUnrec (str "$HEHDT,1,T")).wf = false := by decide

theorem test_wf_encoders_accept : (Instr.encHdt (str "$HEHDT,045.0,T*2E") 14).wf = true ∧
    (Instr.encDpt (str "$SDDPT,2.50") 11).wf = true ∧ (Instr.encUnrec (str "$GPGGA,1,2")).wf = true := by decide

theorem test_wf_csChk : (Instr.csChk []).wf = false ∧ (Instr.csChk [chDollar]).wf = true := by decide

/-! ### Decoding words written out from the encodings -/

/-- BYTE (R91): 0000 1101, 0000 1010, and anything else. -/
theorem test_decode_byte : decode (.byte 0b00001101#8) = .ok .rxCr ∧ decode (.byte 0b00001010#8) = .ok .rxLf ∧
    decode (.byte 0b00001011#8) = .ok (.rxData 0x0B#8) ∧ decode (.byte 0b11111111#8) = .ok (.rxData 0xFF#8) := by
  decide

/-- FRAME, STATE and RESET are selected without bits (opcode_table.json). -/
theorem test_decode_frame_state_reset : decode (.frame frameStandard) = .ok (.brxEnq frameStandard) ∧
    decode .state = .ok .conDeq ∧ decode .reset = .ok .reset := by decide

/-- MSG (R101): 0 is FromBus, 1 is FromSerial. -/
theorem test_decode_msg : decode (.msg 0b0#1 .ok) = .ok .dispatchFromBus ∧
    decode (.msg 0b1#1 .error) = .ok (.dispatchFromSerial .error) := by decide

/-- CANID (R97, R102): priority 010 or 011, then the 18 bits of the PGN, then source address 0010 0011. -/
theorem test_decode_canid : decode (.canid (wordFrame 0b010_011111000100010010_00100011)) =
      .ok (.decHdt (wordFrame 0b010_011111000100010010_00100011)) ∧
    decode (.canid (wordFrame 0b011_011111010100001011_00100011)) =
      .ok (.decDpt (wordFrame 0b011_011111010100001011_00100011)) ∧
    decode (.canid (wordFrame 0b010_011111100000000010_00100011)) =
      .ok (.decVtg (wordFrame 0b010_011111100000000010_00100011)) := by decide

/-- V-DEC-20 and V-DEC-21: PGN 129025, and PGN 127250 with bit 25 set. -/
theorem test_decode_canid_unknown : decode (.canid (wordFrame 0b010_011111100000000001_00100011)) =
      .ok (.decUnrec (wordFrame 0b010_011111100000000001_00100011)) ∧
    decode (.canid (wordFrame 0b010_111111000100010010_00100011)) =
      .ok (.decUnrec (wordFrame 0b010_111111000100010010_00100011)) := by decide

/-- V-DEC-22, V-DEC-23: a frame that breaks its invariant selects no decoder. -/
theorem test_decode_canid_rejects : decode (.canid frameStandard) = .error .frameInvariant ∧
    decode (.canid { frameHeading with dlc := 9 }) = .error .frameInvariant := by decide

/-- TAG3 (R103): 'H' 'D' 'T' = 48 44 54, 'D' 'P' 'T' = 44 50 54; V-ENC-30: tags are case-sensitive. -/
theorem test_decode_tag3 : decodeTableWord 24 0b01001000_01000100_01010100 =
      some (.encHdt (wordSentence 0x484454) 8) ∧
    decodeTableWord 24 0b01000100_01010000_01010100 = some (.encDpt (wordSentence 0x445054) 8) ∧
    decodeTableWord 24 0b01101000_01100100_01110100 = some (.encUnrec (wordSentence 0x686474)) := by decide

/-- SUB: the checksum operations; V-ENC-20: a buffer that fails a check selects no encoder. -/
theorem test_decode_sub : decode (.gen []) = .ok (.csGen []) ∧ decode (.chk [chDollar]) = .ok (.csChk [chDollar]) ∧
    decode (.chk []) = .error .emptyBuffer ∧ decode (.tag3 []) = .error .sentenceChecks := by decide

/-- The words presented to `step`: the operation of each runs as the next step. -/
theorem test_withFetchWord : next (step (State.reset.withFetchWord 32 0x09F11223)) (fun t => t.olen == 17) = true ∧
    next (step (State.reset.withFetchWord 8 0x24)) (fun t => t.rbuf == [0x24#8]) = true ∧
    next (step (State.reset.withFetchWord 24 0x484454)) (fun t => t.busTx.length == 1) = true := by decide

/-! ### Effects -/

/-- V-CS-4, V-CS-9, V-CS-12. -/
theorem test_xor8 : xor8 (str "HEHDT,17.2,T") = 0x1B#8 ∧ xor8 [0xFF#8, 0x0F#8] = 0xF0#8 ∧
    hex2 (xor8 (str "GPHDT,17.2,T")) = str "01" := by decide

/-- V-CS-14. -/
theorem test_csGen : csGenBytes (str "HEHDT,17.2,T") = str "$HEHDT,17.2,T*1B\x0D\x0A" := by decide

/-- V-CK-1 to V-CK-4, V-CK-6, V-CK-8, V-CK-10, V-CK-12. -/
theorem test_csChk : csChkVerdict (str "$HEHDT,045.0,T*2E") = (.isMatch, 14) ∧
    csChkVerdict (str "$HEHDT,045.0,T*2e") = (.isMatch, 14) ∧
    csChkVerdict (str "$HEHDT,045.0,T*1B") = (.mismatch, 14) ∧ csChkVerdict (str "$HEHDT,045.0,T") = (.absent, 14) := by
  decide

theorem test_csChk_format : csChkVerdict (str "$A*4") = (.badFormat, 2) ∧ csChkVerdict (str "$A*4G") = (.badFormat, 2) ∧
    csChkVerdict (str "$A*41*41") = (.badFormat, 2) ∧
    csChkVerdict (str "$HEHDT,045.0,T*2E" ++ [0x00#8]) = (.badFormat, 14) := by decide

/-- V-RX-4: a CR in mid-line. -/
theorem test_rxCr : next (exec .rxCr (pending (str "$AB"))) (fun t => t.rbuf == str "$AB") = true := by decide

/-- V-RX-8, V-RX-5. -/
theorem test_rxLf : next (exec .rxLf (pending (str "$HEHDT,1,T")))
      (fun t => t.rbuf == [] && t.queue == [.fromSerial (str "$HEHDT,1,T")]) = true ∧
    next (exec .rxLf (pending (str "x$HEHDT,1,T"))) (fun t => t.rbuf == [] && t.queue == [] && t.diag == []) = true := by
  decide

/-- V-RX-16: the cursor resets although the enqueue failed. -/
theorem test_rxLf_full : next (exec .rxLf { queued 32 with rbuf := str "$HEHDT,1,T" })
    (fun t => t.rbuf == [] && t.qcount == 32 && t.bpCount == 1 && t.diag.map Event.codes == [(3, 2)]) = true := by decide

/-- V-RX-11, V-RX-12: the 82nd data byte is dropped. -/
theorem test_rxData : next (exec (.rxData 0x41#8) (pending (List.replicate 80 0x41#8))) (fun t => t.rcur == 81) = true ∧
    next (exec (.rxData 0x41#8) (pending (List.replicate 81 0x41#8))) (fun t => t.rcur == 81) = true := by decide

/-- V-Q-4, V-Q-6. -/
theorem test_brxEnq_full : next (exec (.brxEnq frameCourse) (queued 32))
      (fun t => t.queue == (queued 32).queue && t.bpCount == 1 && t.diag.map Event.codes == [(3, 1)]) = true ∧
    next (exec (.brxEnq frameCourse) { queued 32 with bpCount := 0xFFFFFFFF }) (fun t => t.bpCount == 0xFFFFFFFF) =
      true := by decide

/-- V-Q-2, and the wrap of `qhead` (P3). -/
theorem test_conDeq : next (exec .conDeq { State.reset with queue := [.fromBus frameHeading, .fromBus frameDepth] })
      (fun t => t.cur == some (.fromBus frameHeading) && t.queue == [.fromBus frameDepth] && t.cphase == .busy &&
        t.qhead == 1) = true ∧
    next (exec .conDeq { queued 32 with qhead := 31 }) (fun t => t.qcount == 31 && t.qhead == 0) = true := by decide

/-- V-Q-1, V-Q-3. -/
theorem test_conDeq_waits : next (exec .conDeq State.reset) (fun t => t == State.reset) = true ∧
    next (exec .conDeq { queued 1 with cur := some (.fromBus frameHeading) }) (fun t => t.qcount == 1) = true := by decide

/-- V-DEC-1, V-DEC-3. -/
theorem test_decHdt : next (exec (.decHdt frameHeading) State.reset)
      (fun t => t.obuf == str "$HEHDT,17.2,T*1B\x0D\x0A") = true ∧
    next (exec (.decHdt { frameHeading with data := #v[0, 0xFF, 0xFF, 0, 0, 0, 0, 0] }) State.reset)
      (fun t => t.obuf == str "$HEHDT,375.5,T*2B\x0D\x0A") = true := by decide

/-- V-DEC-10, V-DEC-13. -/
theorem test_decDpt : next (exec (.decDpt frameDepth) State.reset)
      (fun t => t.obuf == str "$HEDPT,2.50,0.0,*56\x0D\x0A") = true ∧
    next (exec (.decDpt { frameDepth with data := #v[0, 0xFF, 0xFF, 0xFF, 0xFF, 0, 0, 0] }) State.reset)
      (fun t => t.obuf == str "$HEDPT,42949672.95,0.0,*6C\x0D\x0A") = true := by decide

/-- V-DEC-16, V-DEC-17. -/
theorem test_decVtg : next (exec (.decVtg frameCourse) State.reset)
      (fun t => t.obuf == str "$HEVTG,90.0,T,,M,5.02,N,9.29,K*46\x0D\x0A") = true ∧
    next (exec (.decVtg { frameCourse with data := #v[0, 0, 0, 0, 0x35, 0x0C, 0, 0] }) State.reset)
      (fun t => t.obuf == str "$HEVTG,0.0,T,,M,60.75,N,112.50,K*49\x0D\x0A") = true := by decide

/-- V-DEC-7, V-DEC-14, V-DEC-19b: one byte too few. -/
theorem test_decoders_short : next (exec (.decHdt { frameHeading with dlc := 2 }) State.reset)
      (fun t => t.olen == 0 && t.diag.map Event.codes == [(2, 9)]) = true ∧
    next (exec (.decDpt { frameDepth with dlc := 4 }) State.reset) (fun t => t.diag.map Event.codes == [(2, 9)]) = true ∧
    next (exec (.decVtg { frameCourse with dlc := 5 }) State.reset) (fun t => t.diag.map Event.codes == [(2, 9)]) =
      true := by decide

/-- The six rendering values of 95_test_vectors.md that tell exact from single precision (D9) start with 7566. -/
theorem test_rdiv_and_fix : rdiv 3 2 = 2 ∧ rdiv 5 2 = 3 ∧ fix 5 2 = str "0.05" ∧ fix 1000 1 = str "100.0" ∧
    renderAngleExact cfg.angleScale 9 = str "0.1" ∧ renderAngleExact cfg.angleScale 8 = str "0.0" := by decide

/-- V-DEC-22, and S7: nothing is written for an unknown PGN. -/
theorem test_dispatchFromBus_reports : next (exec .dispatchFromBus (holding (.fromBus frameStandard)))
      (fun t => t.cphase == .idle && t.serTx == [] && t.diag.map Event.codes == [(2, 10)]) = true ∧
    next (exec .dispatchFromBus (holding (.fromBus frameUnknown)))
      (fun t => t.cphase == .idle && t.serTx == [] && t.olen == 0 && t.diag.map Event.codes == [(1, 1)]) = true := by
  decide

/-- P2, step 1. -/
theorem test_dispatchFromBus : next (exec .dispatchFromBus (holding (.fromBus frameHeading)))
    (fun t => t.cphase == .idle && t.serTx == str "$HEHDT,17.2,T*1B\x0D\x0A" && t.diag == []) = true := by decide

/-- V-Q-7, V-Q-8. -/
theorem test_dispatchFromSerial_failed_submit :
    next (exec (.dispatchFromSerial .timeout) (holding (.fromSerial (str "$HEHDT,045.0,T*2E"))))
      (fun t => t.cphase == .idle && t.busTx.map Prod.snd == [.timeout] && t.diag.map Event.codes == [(4, 1)]) = true ∧
    next (exec (.dispatchFromSerial .error) (holding (.fromSerial (str "$HEHDT,045.0,T*2E"))))
      (fun t => t.busTx.map Prod.snd == [.error] && t.diag.map Event.codes == [(4, 2)]) = true := by decide

/-- V-ENC-2, V-ENC-31, V-ENC-18: the checks come before the tag. -/
theorem test_dispatchFromSerial_checks :
    next (exec (.dispatchFromSerial .ok) (holding (.fromSerial (str "$HEHDT,045.0,T*1B"))))
      (fun t => t.busTx == [] && t.diag.map Event.codes == [(2, 4)]) = true ∧
    next (exec (.dispatchFromSerial .ok) (holding (.fromSerial (str "$GPGGA,1,2*00"))))
      (fun t => t.diag.map Event.codes == [(2, 4)]) = true ∧
    next (exec (.dispatchFromSerial .ok) (holding (.fromSerial (str "$ABC"))))
      (fun t => t.diag.map Event.codes == [(2, 2)]) = true := by decide

/-- V-ENC-1, V-ENC-22: the payload bytes; the rest of the frame is R219's. -/
theorem test_encHdt : (frameOf (encHdt (str "$HEHDT,045.0,T") 14 State.reset |>.2.map Ret.frame)).map Frame.data =
      some #v[0xFF#8, 0xAE#8, 0x1E#8, 0xFF#8, 0xFF#8, 0xFF#8, 0xFF#8, 0xFF#8] ∧
    (frameOf (encHdt (str "$HEHDTX045.0,9,T") 16 State.reset |>.2.map Ret.frame)).map Frame.data =
      some #v[0xFF#8, 0x23#8, 0x06#8, 0xFF#8, 0xFF#8, 0xFF#8, 0xFF#8, 0xFF#8] := by decide

/-- V-ENC-40, V-ENC-44. -/
theorem test_encDpt : (frameOf (encDpt (str "$SDDPT,2.50") 11 State.reset |>.2.map Ret.frame)).map Frame.data =
      some #v[0xFF#8, 0xFA#8, 0x00#8, 0x00#8, 0x00#8, 0xFF#8, 0xFF#8, 0xFF#8] ∧
    (frameOf (encDpt (str "$HEDPT,0.005") 12 State.reset |>.2.map Ret.frame)).map Frame.data =
      some #v[0xFF#8, 0x01#8, 0x00#8, 0x00#8, 0x00#8, 0xFF#8, 0xFF#8, 0xFF#8] := by decide

/-- V-ENC-13, V-ENC-15, V-ENC-17, V-ENC-11: the four errors of the field. -/
theorem test_enc_field_errors : next (exec (.encHdt (str "$HEHDT*55") 6) State.reset)
      (fun t => t.diag.map Event.codes == [(2, 5)]) = true ∧
    next (exec (.encHdt (str "$HEHDT,,T") 9) State.reset) (fun t => t.diag.map Event.codes == [(2, 6)]) = true ∧
    next (exec (.encHdt (str "$HEHDT,45.,T") 12) State.reset) (fun t => t.diag.map Event.codes == [(2, 7)]) = true ∧
    next (exec (.encHdt (str "$HEHDT,375.5,T") 14) State.reset) (fun t => t.diag.map Event.codes == [(2, 8)]) = true := by
  decide

/-- V-ENC-46, V-ENC-47. -/
theorem test_encDpt_errors : next (exec (.encDpt (str "$HEDPT,42949672.96") 18) State.reset)
      (fun t => t.diag.map Event.codes == [(2, 8)]) = true ∧
    next (exec (.encDpt (str "$HEDPT,-1.0") 11) State.reset) (fun t => t.diag.map Event.codes == [(2, 7)]) = true := by
  decide

/-- V-ENC-30. -/
theorem test_encUnrec : next (exec (.dispatchFromSerial .ok) (holding (.fromSerial (str "$GPGGA,1,2"))))
    (fun t => t.busTx == [] && t.diag.map Event.codes == [(1, 2)]) = true := by decide

/-- P6: the pending line is lost at a reset. -/
theorem test_reset : next (exec .reset (pending (str "$HEHD"))) (fun t => t == State.reset) = true := by decide

/-! ### Witnesses: for each statement with hypotheses, values that meet them, clause by clause -/

theorem witness_rxLf : (pending [chDollar]).rbuf.head? = some chDollar ∧ (pending [chDollar]).queue.length < 32 ∧
    ({ queued 31 with rbuf := [chDollar] } : State).queue.length < 32 ∧
    32 ≤ ({ queued 32 with rbuf := [chDollar] } : State).queue.length ∧
    ({ queued 32 with rbuf := [chDollar] } : State).rbuf.head? = some chDollar ∧
    (pending []).rbuf.head? ≠ some chDollar ∧ (pending [0x78#8, chDollar]).rbuf.head? ≠ some chDollar := by decide

theorem witness_rxData : (pending []).rbuf.length < 81 ∧ (pending (List.replicate 80 0x41#8)).rbuf.length < 81 ∧
    81 ≤ (pending (List.replicate 81 0x41#8)).rbuf.length := by decide

/-- A line of 82 data bytes starting with `'$'` (V-RX-12), and an empty line with CRs (V-RX-2). -/
theorem witness_line :
    let emitted := chDollar :: List.replicate 81 0x41#8
    let silent := [chCR, chCR]
    (lines (rxLines (emitted ++ [chLF]) ++ [.deq])).rbuf = [] ∧
    (lines (rxLines (emitted ++ [chLF]) ++ [.deq])).queue.length < 32 ∧ (∀ b ∈ emitted, b ≠ chLF) ∧
    ((emitted.filter fun b => b != chCR).take 81).head? = some chDollar ∧ (∀ b ∈ silent, b ≠ chLF) ∧
    ((silent.filter fun b => b != chCR).take 81).head? ≠ some chDollar := by decide

theorem witness_enqueue : (queued 31).queue.length < 32 ∧ 32 ≤ (queued 32).queue.length := by decide

theorem witness_overflow :
    let s := { queued 31 with inputs := [frameHeading, frameDepth, frameCourse].map Token.can ++ [Token.deq] }
    s.queue.length ≤ 32 ∧ s.inputs = [frameHeading, frameDepth, frameCourse].map Token.can ++ [Token.deq] ∧
      (queued 32).queue.length ≤ 32 := by decide

theorem witness_conDeq : ({ queued 1 with qhead := 31 } : State).cur = none ∧
    ({ queued 1 with qhead := 31 } : State).queue = [.fromBus frameDepth] := by decide

theorem witness_consumer_not_enabled : (holding (.fromBus frameDepth)).cphase = .busy ∧ State.reset.qcount = 0 ∧
    State.reset.cphase = .idle ∧ (holding (.fromSerial (str "$"))).cur = some (.fromSerial (str "$")) ∧
    (holding (.fromBus frameDepth)).cur = some (.fromBus frameDepth) := by decide

/-- P4 in small: a frame and a line queued, one taken. -/
theorem witness_fifo :
    let s := lines [.can frameDepth, .rx chDollar, .rx chLF, .deq]
    (∀ x ∈ s.inputs.take 4, x ≠ .reset) ∧ (∃ t, run 4 s = .next t ∧ t.queue = [.fromSerial [chDollar]]) ∧
      runAccepted 4 s = [.fromBus frameDepth, .fromSerial [chDollar]] ∧ runTaken 4 s = [.fromBus frameDepth] :=
  ⟨by decide, ⟨_, rfl, rfl⟩, rfl, rfl⟩

theorem witness_dispatchFromBus : (holding (.fromBus frameStandard)).cur = some (.fromBus frameStandard) ∧
    frameStandard.ide = false ∧ 8 < ({ frameHeading with dlc := 9 } : Frame).dlc.toNat ∧ frameHeading.ide = true ∧
    frameHeading.dlc.toNat ≤ 8 := by decide

theorem witness_dispatchFromSerial :
    (holding (.fromSerial (str "$HEHDT,045.0,T*1B"))).cur = some (.fromSerial (str "$HEHDT,045.0,T*1B")) ∧
    (match checkSentence true (str "$HEHDT,045.0,T*1B") with
      | .error e => e == .checksumMismatch
      | .ok _ => false) = true ∧
    (match checkSentence true (str "$HEHDT,045.0,T*2E") with
      | .error _ => false
      | .ok n => n == 14) = true := by decide

theorem witness_checks : (str "HEHDT,045.0,T").head? ≠ some chDollar ∧ (str "$HEHD").head? = some chDollar ∧
    (str "$HEHD").length < 6 ∧ 6 ≤ (str "$HEHDT").length ∧ (csChkVerdict (str "$HEHDT")).1 = .absent ∧
    (csChkVerdict (str "$HEHDT,045.0,T*2")).1 = .badFormat ∧ (csChkVerdict (str "$HEHDT,045.0,T*1B")).1 = .mismatch ∧
    (csChkVerdict (str "$HEHDT,045.0,T*2E")).1 = .isMatch := by decide

theorem witness_without_enforcement : (str "$HEHDT,045.0,T*1B").head? = some chDollar ∧
    6 ≤ (str "$HEHDT,045.0,T*1B").length ∧ (csChkVerdict (str "$HEHDT,045.0,T*1B")).2 = 14 := by decide

theorem witness_no_dollar : (holding (.fromSerial [])).cur = some (.fromSerial []) ∧
    ([] : List Byte).head? ≠ some chDollar ∧ (str "HEHDT,045.0,T").head? ≠ some chDollar := by decide

theorem witness_isolation : (holding (.fromBus frameHeading)).cur = some (.fromBus frameHeading) ∧
    (holding (.fromSerial (str "$HEHDT,1,T"))).cur = some (.fromSerial (str "$HEHDT,1,T")) := by decide

theorem witness_decoders : ({ frameHeading with dlc := 2 } : Frame).dlc.toNat < 3 ∧
    3 ≤ ({ frameHeading with dlc := 3 } : Frame).dlc.toNat ∧ ({ frameDepth with dlc := 4 } : Frame).dlc.toNat < 5 ∧
    5 ≤ ({ frameDepth with dlc := 5 } : Frame).dlc.toNat ∧ ({ frameCourse with dlc := 5 } : Frame).dlc.toNat < 6 ∧
    6 ≤ ({ frameCourse with dlc := 6 } : Frame).dlc.toNat := by decide

theorem witness_pgn : frameHeading.ide = true ∧ frameHeading.dlc.toNat ≤ 8 ∧
    frameHeading.id &&& 0x03FFFF00#29 = 0x01F11200#29 ∧ frameDepth.id &&& 0x03FFFF00#29 = 0x01F50B00#29 ∧
    frameCourse.id &&& 0x03FFFF00#29 = 0x01F80200#29 ∧ frameUnknown.id &&& 0x03FFFF00#29 = 0x01F80100#29 := by decide

theorem witness_identifier : frameHeading.id = composeId 2 0x1F112#18 0x23 ∧
    ({ frameHeading with id := 0x1FFFFFFF } : Frame).id = composeId 7 0x3FFFF#18 0xFF := by decide

/-- V-DEC-4 and V-DEC-6 with another priority and source address: three bytes, the other five differ. -/
theorem witness_open_bytes :
    let f := ext 0x09F11223#29 3 #v[0, 0xAE, 0x1E, 1, 2, 3, 4, 5]
    let g := ext 0x19F112FE#29 3 #v[0, 0xAE, 0x1E, 9, 8, 7, 6, 5]
    f.pgn = g.pgn ∧ f.ide = g.ide ∧ f.dlc = g.dlc ∧ (∀ k : Fin 8, k.val < f.dlc.toNat → f.data[k] = g.data[k]) ∧
      f ≠ g := by decide

theorem witness_length_bounds : (65535 : Nat) < 2 ^ 16 ∧ (4294967295 : Nat) < 2 ^ 32 ∧
    (csGenBytes (hdtBody 0)).length = 17 ∧ (csGenBytes (hdtBody 65535)).length = 19 ∧
    (csGenBytes (dptBody 4294967295)).length = 28 ∧ (csGenBytes (vtgBody 65535 65535)).length = 42 := by decide

theorem witness_rdiv : 0 < 2 ∧ rdiv 3 2 = 2 ∧ rdiv 1 2 = 1 := by decide

theorem witness_fix : 1 ≤ 2 ∧ parseNum (fix 4294967295 2) = some (4294967295, 2) ∧ (fix 5 2).head? = some 0x30#8 := by
  decide

theorem witness_number : parseNum (str "045.0") = some (450, 1) ∧ parseNum (str "9") = some (9, 0) ∧
    parseNum (str "45.") = none := by decide

theorem witness_field : chComma ∉ (str "$HEHDT*55").take 6 ∧
    (str "$SDDPT,2.50").take 11 = str "$SDDPT" ++ [chComma] ++ str "2.50" ∧
    (str "$HEHDT,,T").take 9 = str "$HEHDT" ++ [chComma] ++ [] ++ [chComma] ++ str "T" ∧ chComma ∉ str "$HEHDT" ∧
    chComma ∉ str "2.50" ∧ chComma ∉ str "$SDDPT" := by decide

theorem witness_encHdt : field (str "$HEHDT") 6 1 = none ∧ field (str "$HEHDT,") 7 1 = some [] ∧
    field (str "$HEHDT,45.,T") 12 1 = some (str "45.") ∧ parseNum (str "45.") = none ∧
    field (str "$HEHDT,375.5,T") 14 1 = some (str "375.5") ∧ parseNum (str "375.5") = some (3755, 1) ∧
    0xFFFF < (2 * (3755 * 10 ^ 8) + 572958 * 10 ^ 1) / (2 * (572958 * 10 ^ 1)) ∧
    parseNum (str "0375.49") = some (37549, 2) ∧
    (2 * (37549 * 10 ^ 8) + 572958 * 10 ^ 2) / (2 * (572958 * 10 ^ 2)) = 0xFFFF := by decide

theorem witness_encDpt : field (str "$HEDPT") 6 1 = none ∧ field (str "$HEDPT,") 7 1 = some [] ∧
    field (str "$HEDPT,-1.0") 11 1 = some (str "-1.0") ∧ parseNum (str "-1.0") = none ∧
    field (str "$HEDPT,42949672.96") 18 1 = some (str "42949672.96") ∧
    parseNum (str "42949672.96") = some (4294967296, 2) ∧
    0xFFFFFFFF < (2 * (4294967296 * 100) + 10 ^ 2) / (2 * 10 ^ 2) ∧
    parseNum (str "42949672.95") = some (4294967295, 2) ∧
    (2 * (4294967295 * 100) + 10 ^ 2) / (2 * 10 ^ 2) = 0xFFFFFFFF := by decide

theorem witness_tag : (Instr.encHdt (str "$HEHDT,1,T") 10).wf = true ∧
    ((str "$HEHDT,1,T").drop 3).take 3 = [0x48#8, 0x44#8, 0x54#8] ∧
    ((str "$SDDPT,2.50").drop 3).take 3 = [0x44#8, 0x50#8, 0x54#8] ∧
    ((str "$GPGGA,1,2").drop 3).take 3 ≠ [0x48#8, 0x44#8, 0x54#8] ∧
    ((str "$GPGGA,1,2").drop 3).take 3 ≠ [0x44#8, 0x50#8, 0x54#8] := by decide

/-- `$HEHDT,045.0` beside `$GPHDTX,045.0,M,9`, and the same for `DPT`. -/
theorem witness_later_fields :
    (asc ['H', 'D', 'T'] = asc ['H', 'D', 'T'] ∨ asc ['H', 'D', 'T'] = asc ['D', 'P', 'T']) ∧
    (asc ['D', 'P', 'T'] = asc ['H', 'D', 'T'] ∨ asc ['D', 'P', 'T'] = asc ['D', 'P', 'T']) ∧
    (∀ z ∈ str "HEGP" ++ [] ++ str "X" ++ str "045.0", z ≠ chComma ∧ z ≠ chStar) ∧
    chStar ∉ ([] : List Byte) ∧ chStar ∉ str ",M,9" ∧ (str ",M,9").head? = some chComma := by decide

theorem witness_depth_pair : 5 ≤ frameDepth.dlc.toNat ∧ ∃ u, exec (.decDpt frameDepth) State.reset = .next u ∧
    u.ret = some (.sentence (str "$HEDPT,2.50,0.0,*56\x0D\x0A")) := ⟨by decide, ⟨_, rfl, rfl⟩⟩

/-- The heading 65528 prints 375.4 and 65529 prints 375.5. -/
theorem witness_heading_pair :
    let f := { frameHeading with data := #v[0, 0xF8, 0xFF, 0, 0, 0, 0, 0] }
    let g := { frameHeading with data := #v[0, 0xF9, 0xFF, 0, 0, 0, 0, 0] }
    3 ≤ f.dlc.toNat ∧ f.data[1].toNat + 256 * f.data[2].toNat = 65528 ∧
      g.data[1].toNat + 256 * g.data[2].toNat = 65529 ∧
      next (exec (.decHdt f) State.reset) (fun u => u.ret == some (.sentence u.obuf) &&
        u.obuf.take 12 == str "$HEHDT,375.4") = true ∧
      next (exec (.decHdt g) State.reset) (fun u => u.ret == some (.sentence u.obuf) &&
        u.obuf.take 12 == str "$HEHDT,375.5") = true := by decide

theorem witness_csChk : chStar ∉ str "$A" ∧ (str "4").length ≠ 2 ∧ (str "41x").length ≠ 2 ∧
    hexval 0x47#8 = none ∧ hexval 0x34#8 = some 4 ∧ hexval 0x31#8 = some 1 ∧ hexval 0x66#8 = some 15 := by decide

theorem witness_generated : chStar ∉ str "HEHDT,17.2,T" ∧ chStar ∉ ([] : List Byte) := by decide

theorem witness_xor_laws : (str "AB").Perm (str "BA") ∧ (0x32#8 : Byte) ≠ 0x33#8 := by decide

theorem witness_raises_once : (lines [.exec .ok]).inputs.head? ≠ some .reset ∧
    next (step { holding (.fromBus frameUnknown) with inputs := [.exec .ok] }) (fun t => t.diag.length == 1) = true := by
  decide

theorem witness_traces_grow : ({ holding (.fromBus frameHeading) with inputs := [.exec .ok] } : State).inputs.head? ≠
      some .reset ∧
    next (step { holding (.fromBus frameHeading) with inputs := [.exec .ok] }) (fun t => t.serTx.length == 18) = true := by
  decide

theorem witness_invariant : ({ queued 32 with inputs := [.deq], rbuf := List.replicate 81 chDollar } : State).inv = true ∧
    next (step { queued 32 with inputs := [.deq], rbuf := List.replicate 81 chDollar }) (fun t => t.qcount == 31) =
      true := by decide

/-- A state that has already submitted a frame, and one whose step submits one. -/
theorem witness_bus_frames : (∀ x ∈ ([] : List (Frame × BusAnswer)), encodedFrame x.1) ∧
    next (step { holding (.fromSerial (str "$HEHDT,1,T")) with inputs := [.exec .ok] }) (fun t => t.busTx.length == 1) =
      true := ⟨by simp, by decide⟩

theorem witness_serial_output : (∃ outs : List (List Byte), csGenBytes (str "A") = outs.flatten ∧
    ∀ o ∈ outs, generated o) ∧
    next (step { holding (.fromBus frameHeading) with inputs := [.exec .ok], serTx := csGenBytes (str "A") })
      (fun t => t.serTx.length == 25) = true :=
  ⟨⟨[csGenBytes (str "A")], by simp, by
    intro o ho
    rw [List.mem_singleton] at ho
    exact ⟨str "A", by decide, ho, by rw [ho]; decide⟩⟩, by decide⟩

/-- One line of each kind. -/
theorem witness_ownership : (∃ t, step (lines [.rx chDollar]) = .next t) ∧ (∃ t, step (lines [.can frameDepth]) = .next t) ∧
    (∃ t, step { queued 1 with inputs := [.deq] } = .next t ∧ t.qcount = 0) ∧
    (∃ t, step { holding (.fromBus frameHeading) with inputs := [.exec .ok] } = .next t ∧ t.cphase = .idle) :=
  ⟨⟨_, rfl⟩, ⟨_, rfl⟩, ⟨_, rfl, rfl⟩, ⟨_, rfl, rfl⟩⟩

/-- An overflow and a decoding error, in both orders. -/
theorem witness_commutes :
    let s := { queued 32 with cur := some (.fromBus frameUnknown) }
    (∃ t, run 2 { s with inputs := [.can frameHeading, .exec .ok] } = .next t ∧
      t.diag.map Event.codes = [(3, 1), (1, 1)]) ∧
    (∃ u, run 2 { s with inputs := [.exec .ok, .can frameHeading] } = .next u ∧
      u.diag.map Event.codes = [(1, 1), (3, 1)]) :=
  ⟨⟨_, rfl, rfl⟩, ⟨_, rfl, rfl⟩⟩

theorem witness_drain : (queued 2).queue.length < 3 ∧
    ({ queued 2 with inputs := drainLines 3 } : State).inputs = drainLines 3 ++ [] ∧
    next (run 6 { queued 2 with inputs := drainLines 3 }) (fun t => t.queue == [] && t.serTx.length == 42) = true := by
  decide

theorem witness_step : State.reset.inputs = [] ∧ (lines [.exec .ok]).inputs = [.exec .ok] ∧
    fetchWord (lines [.exec .ok]).cur (.exec .ok) = none ∧
    fetchWord (lines [.rx 0x24#8]).cur (.rx 0x24#8) = some (.byte 0x24#8) ∧
    decode (.byte 0x24#8) = .ok (.rxData 0x24#8) := by decide

theorem witness_lines : (0x24#8 : Byte) ≠ 0x0D#8 ∧ (0x24#8 : Byte) ≠ 0x0A#8 ∧
    (holding (.fromBus frameDepth)).cur = some (.fromBus frameDepth) ∧
    (holding (.fromSerial (str "$"))).cur = some (.fromSerial (str "$")) := by decide

theorem witness_encoding : (Instr.decHdt frameHeading).wf = true ∧ (Instr.encHdt (str "$HEHDT,1,T") 10).wf = true ∧
    decode (.canid frameHeading) = .ok (.decHdt frameHeading) ∧
    decode (.msg 0#1 .timeout) = .ok .dispatchFromBus := by decide

theorem witness_event_codes : (Event.backpressure .bus).codes = (3, 1) ∧
    (Event.malformedInput .outputOverflow).codes = (2, 11) := by decide

end Sys2Proof.Tests
end

section
/-! The selection of an encoder by the sentence tag (R39, R103): the lookup of `encodeTable` as a comparison of the three
tag bytes, and the operation a checked TAG3 buffer decodes to. -/

namespace Sys2Proof

/-- The operation of an answer of the sentence encode table (R103): `none` is ENC.UNREC. -/
def encoderInstr (buf : List Byte) (bodyEnd : Nat) : Option Encoder → Instr
  | some .hdt => .encHdt buf bodyEnd
  | some .dpt => .encDpt buf bodyEnd
  | none => .encUnrec buf

/-- Past the checks, TAG3 decodes to the operation of the table's answer, with the `bodyEnd` the checks found. -/
theorem decode_tag3_of_checked {buf : List Byte} {n : Nat} (h : checkSentence true buf = .ok n) :
    decode (.tag3 buf) = .ok (encoderInstr buf n (encoderOf buf)) := by
  have henf : cfg.csEnforce = true := rfl
  simp only [decode, decodeTag3, henf, h]
  rcases encoderOf buf with _ | _ | _ <;> rfl

/-- The lookup reads nothing but the three tag bytes, and compares them byte for byte. -/
theorem encoderOf_eq_ite (buf : List Byte) :
    encoderOf buf =
      if tagOf buf = [0x48#8, 0x44#8, 0x54#8] then some .hdt
      else if tagOf buf = [0x44#8, 0x50#8, 0x54#8] then some .dpt
      else none := by
  have htable : cfg.encodeTable =
      [([0x48#8, 0x44#8, 0x54#8], .hdt), ([0x44#8, 0x50#8, 0x54#8], .dpt)] := rfl
  rw [encoderOf, htable]
  split_ifs with hhdt hdpt
  · rw [hhdt, List.lookup_cons_self]
  · rw [hdpt, List.lookup_cons, List.lookup_cons_self]
    rfl
  · simp [List.lookup_eq_none_iff, hhdt, hdpt]

/-- Settles O33: a checked buffer decodes to the operation of the table's answer, and the table's answer compares the
three tag bytes; each clause fixes the outcome of that comparison. -/
theorem tagSelectsTheEncoder : Obligations.TagSelectsTheEncoder := by
  unfold Obligations.TagSelectsTheEncoder
  intro buf n hchecked
  rw [decode_tag3_of_checked hchecked, encoderOf_eq_ite, tagOf]
  refine ⟨fun hhdt => ?_, fun hdpt => ?_, fun hnotHdt hnotDpt => ?_⟩
  · rw [if_pos hhdt, encoderInstr]
  · rw [hdpt, if_neg (by decide), if_pos rfl, encoderInstr]
  · rw [if_neg hnotHdt, if_neg hnotDpt, encoderInstr]

end Sys2Proof
end

section
/-! The checksum engine (40_checksum.md): CS.GEN called by itself, and the sealed sentence in the spec's spelling. -/

namespace Sys2Proof.Machine

/-- What CS.GEN called by itself does: the sealed body stands in `ret`, every other field is kept. -/
theorem exec_csGen (body : List Byte) (s : State) :
    exec (.csGen body) s = .next { s with ret := some (.sentence (csGenBytes body)) } := rfl

/-- The sealed body as the concatenation of R133: `csGenBytes` conses the dollar sign on, R133 appends to it. -/
theorem csGenBytes_eq_append (body : List Byte) :
    csGenBytes body = [chDollar] ++ body ++ [chStar] ++ hex2 (xor8 body) ++ [chCR, chLF] := by
  simp only [csGenBytes, List.cons_append, List.nil_append]

/-- Settles O37: CS.GEN answers with `csGenBytes`, whose bytes are R133's concatenation, and writes nothing else. -/
theorem csGenSealsTheBody : Obligations.CsGenSealsTheBody := by
  unfold Obligations.CsGenSealsTheBody
  intro s body
  rw [exec_csGen, csGenBytes_eq_append]

end Sys2Proof.Machine
end

section
/-! The sentence reassembler (41_reassembler.md): what RX.CR and RX.DATA do to the pending line. -/

namespace Sys2Proof.Machine

/-- RX.CR keeps every field, the pending line too (R151). -/
theorem exec_rxCr (s : State) : exec .rxCr s = .next s := rfl

/-- RX.DATA in one equation, with the capacity of the configuration (81) written out (R154). -/
theorem exec_rxData (b : Byte) (s : State) :
    exec (.rxData b) s = .next (if s.rbuf.length < 81 then { s with rbuf := s.rbuf ++ [b] } else s) := rfl

/-- Settles O1: the effect of RX.CR reads nothing of the state, so `exec_rxCr` is the statement. -/
theorem rxCrLeavesEverythingUnchanged : Obligations.RxCrLeavesEverythingUnchanged := by
  unfold Obligations.RxCrLeavesEverythingUnchanged
  exact exec_rxCr

/-- Settles O3: the two clauses are the two branches of the capacity test. -/
theorem rxDataAppendsWhileThereIsRoom : Obligations.RxDataAppendsWhileThereIsRoom := by
  unfold Obligations.RxDataAppendsWhileThereIsRoom
  intro s b
  rw [exec_rxData]
  refine ⟨fun hroom => ?_, fun hfull => ?_⟩
  · rw [if_pos hroom]
  · rw [if_neg (Nat.not_lt.2 hfull)]

end Sys2Proof.Machine
end

section
/-! The selection of a decoder by the identifier (R38, R102, R173): the identifier as its three fields, the PGN mask as a
comparison of the PGN, and the lookup of `decodeTable` as a comparison with the three registered PGNs. -/

namespace Sys2Proof

/-- The identifier is its three fields side by side (R97, R98). -/
theorem Frame.id_eq_composeId (f : Frame) : f.id = composeId f.prio f.pgn f.sa := by
  have hhigh : f.prio ++ f.pgn = f.id.extractLsb' 8 21 := BitVec.extractLsb'_append_extractLsb'_eq_extractLsb' rfl
  have hid : f.id.extractLsb' 8 21 ++ f.sa = f.id := BitVec.extractLsb'_append_extractLsb'
  rw [composeId, hhigh, hid]

/-- The PGN of a composed identifier is the PGN it was composed of (R97, R98). -/
theorem composeId_pgn (p : BitVec 3) (g : BitVec 18) (a : Byte) : (composeId p g a).extractLsb' 8 18 = g := by
  have hdropSa : (composeId p g a).extractLsb' 8 18 = (p ++ g).extractLsb' 0 18 :=
    BitVec.extractLsb'_append_eq_of_le (Nat.le_refl 8)
  rw [hdropSa, BitVec.extractLsb'_append_eq_right]

/-- The bitwise AND of two composed identifiers is taken field by field. -/
theorem composeId_and_composeId (p p' : BitVec 3) (g g' : BitVec 18) (a a' : Byte) :
    composeId p g a &&& composeId p' g' a' = composeId (p &&& p') (g &&& g') (a &&& a') := by
  have hhigh : (p ++ g) &&& (p' ++ g') = (p &&& p') ++ (g &&& g') := BitVec.and_append
  have hid : (p ++ g ++ a) &&& (p' ++ g' ++ a') = ((p ++ g) &&& (p' ++ g')) ++ (a &&& a') := BitVec.and_append
  exact hid.trans (congrArg (· ++ (a &&& a')) hhigh)

/-- The mask of R102 keeps the PGN and clears the priority and the source address. -/
theorem Frame.id_and_pgnMask (f : Frame) : f.id &&& 0x03FFFF00#29 = composeId 0#3 f.pgn 0#8 := by
  have hmask : 0x03FFFF00#29 = composeId 0#3 (BitVec.allOnes 18) 0#8 := by decide
  rw [hmask, f.id_eq_composeId, composeId_and_composeId, BitVec.and_zero, BitVec.and_allOnes, BitVec.and_zero]

/-- Comparing the masked identifier is comparing the PGN: priority and source address take no part (R173). -/
theorem Frame.id_and_pgnMask_eq_iff (f : Frame) (g : BitVec 18) :
    f.id &&& 0x03FFFF00#29 = composeId 0#3 g 0#8 ↔ f.pgn = g := by
  rw [f.id_and_pgnMask]
  refine ⟨fun hmasked => ?_, fun hpgn => by rw [hpgn]⟩
  have hfields := congrArg (BitVec.extractLsb' 8 18) hmasked
  rwa [composeId_pgn, composeId_pgn] at hfields

/-- The operation of an answer of the PGN decode table (R102): `none` is DEC.UNREC. -/
def decoderInstr (f : Frame) : Option Decoder → Instr
  | some .hdt => .decHdt f
  | some .dpt => .decDpt f
  | some .vtg => .decVtg f
  | none => .decUnrec f

/-- For a frame that keeps its invariant, CANID decodes to the operation of the table's answer. -/
theorem decode_canid_of_invariant {f : Frame} (hide : f.ide = true) (hdlc : f.dlc.toNat ≤ 8) :
    decode (.canid f) = .ok (decoderInstr f (decoderOf f)) := by
  have hinv : f.invariantOk = true := by rw [Frame.invariantOk, hide, decide_eq_true hdlc, Bool.and_self]
  rw [decode, decodeCanid, if_pos hinv]
  rcases decoderOf f with _ | _ | _ | _ <;> rfl

/-- The lookup reads nothing but the PGN, and compares it with the three registered ones (R38). -/
theorem decoderOf_eq_ite (f : Frame) :
    decoderOf f =
      if f.pgn = 127250#18 then some .hdt
      else if f.pgn = 128267#18 then some .dpt
      else if f.pgn = 129026#18 then some .vtg
      else none := by
  have htable : cfg.decodeTable = [(127250#18, .hdt), (128267#18, .dpt), (129026#18, .vtg)] := rfl
  rw [decoderOf, htable]
  split_ifs with hhdt hdpt hvtg
  · rw [hhdt, List.lookup_cons_self]
  · rw [hdpt]
    rfl
  · rw [hvtg]
    rfl
  · simp [List.lookup_eq_none_iff, hhdt, hdpt, hvtg]

/-- Settles O21: each masked value of the statement is the identifier with a registered PGN and nothing else, so the four
clauses are the four branches of the lookup. -/
theorem pgnSelectsTheDecoder : Obligations.PgnSelectsTheDecoder := by
  unfold Obligations.PgnSelectsTheDecoder
  intro f hide hdlc
  have hhdt : f.id &&& 0x03FFFF00#29 = 0x01F11200#29 ↔ f.pgn = 127250#18 := f.id_and_pgnMask_eq_iff 127250#18
  have hdpt : f.id &&& 0x03FFFF00#29 = 0x01F50B00#29 ↔ f.pgn = 128267#18 := f.id_and_pgnMask_eq_iff 128267#18
  have hvtg : f.id &&& 0x03FFFF00#29 = 0x01F80200#29 ↔ f.pgn = 129026#18 := f.id_and_pgnMask_eq_iff 129026#18
  rw [ne_eq, ne_eq, ne_eq, hhdt, hdpt, hvtg, decode_canid_of_invariant hide hdlc, decoderOf_eq_ite]
  refine ⟨fun isHdt => ?_, fun isDpt => ?_, fun isVtg => ?_, fun notHdt notDpt notVtg => ?_⟩
  · rw [if_pos isHdt, decoderInstr]
  · rw [isDpt, if_neg (by decide), if_pos rfl, decoderInstr]
  · rw [isVtg, if_neg (by decide), if_neg (by decide), if_pos rfl, decoderInstr]
  · rw [if_neg notHdt, if_neg notDpt, if_neg notVtg, decoderInstr]

end Sys2Proof
end

section
/-! DEC.UNREC (42_frame_decode.md): the report of a PGN the table does not hold. -/

namespace Sys2Proof.Machine

/-- What DEC.UNREC called by itself does: it raises the unknown PGN and returns no sentence (R174). -/
theorem exec_decUnrec (f : Frame) (s : State) :
    exec (.decUnrec f) s = .next { raise (.unrecognizedIdentifier .pgn) s with ret := none } := rfl

/-- Settles O20: DEC.UNREC reads nothing of the frame, and `raise` writes nothing but the event. -/
theorem decUnrecOnlyReportsThePgn : Obligations.DecUnrecOnlyReportsThePgn := by
  unfold Obligations.DecUnrecOnlyReportsThePgn
  intro s f
  rw [exec_decUnrec, raise]

end Sys2Proof.Machine
end

section
/-! ENC.UNREC (43_sentence_encode.md): the report of a tag the table does not hold. -/

namespace Sys2Proof.Machine

/-- A sub-operation that raised, called by itself, leaves its event and no result, whatever kind of result it has
(R300). -/
theorem returning_raised {α : Type} (wrap : α → Ret) (e : Event) (s : State) :
    returning wrap (raised e s) = { raise e s with ret := none } := rfl

/-- ENC.UNREC called by itself raises the unknown tag in place of a frame (R214). -/
theorem exec_encUnrec (buf : List Byte) (s : State) :
    exec (.encUnrec buf) s = .next (returning .frame (raised (.unrecognizedIdentifier .tag) s)) := rfl

/-- Settles O32: ENC.UNREC reads nothing of the buffer, a raised sub-operation returns nothing, and `raise` writes
nothing but the event. -/
theorem encUnrecOnlyReportsTheTag : Obligations.EncUnrecOnlyReportsTheTag := by
  unfold Obligations.EncUnrecOnlyReportsTheTag
  intro s buf
  rw [exec_encUnrec, returning_raised, raise]

end Sys2Proof.Machine
end

section
/-! Isolation of CON.EXEC (44_queue_dispatch.md, R260): what a translation adds is fixed by its message and ENV's answer. -/

namespace Sys2Proof.Machine

/-- Settles O16: `conExec_cases` chooses the sentence, the submits and the events before the state, and gives the whole
next state: no sentence adds nothing to `serTx`, and every field of the frame conditions is copied. -/
theorem translationDependsOnItsMessageAlone : Obligations.TranslationDependsOnItsMessageAlone := by
  unfold Obligations.TranslationDependsOnItsMessageAlone
  intro m r
  obtain ⟨out, tx, ev, -, -, -, hexec⟩ := conExec_cases m r
  refine ⟨out.getD [], tx, ev, fun s hcur => ⟨_, hexec s hcur, ?idle, ?unchanged⟩⟩
  case idle => exact (cphase_eq_idle _).2 rfl
  case unchanged => exact ⟨rfl, rfl, rfl, rfl, rfl, rfl, rfl, rfl⟩

end Sys2Proof.Machine
end

section
/-! The invariant of the state (10_state.md R44) as six named facts, and what keeps them: an enqueue of a well-formed
message, and every step. -/

namespace Sys2Proof.Machine

/-- The invariant, part by part (R44 a to d, f, g): the three capacities, the clean pending line, and well-formed
messages in the queue and in hand. -/
structure InvParts (s : State) : Prop where
  rbuf_length : s.rbuf.length ≤ 81
  queue_length : s.queue.length ≤ 32
  obuf_length : s.obuf.length ≤ 82
  rbuf_ok : lineOk s.rbuf = true
  queue_ok : ∀ m ∈ s.queue, msgOk m = true
  cur_ok : ∀ m, s.cur = some m → msgOk m = true

theorem inv_iff_parts (s : State) : s.inv = true ↔ InvParts s := by
  have hcur : s.cur.all msgOk = true ↔ ∀ m, s.cur = some m → msgOk m = true := by
    cases s.cur <;> simp
  rw [State.inv, Bool.and_eq_true, Bool.and_eq_true, Bool.and_eq_true, wf_iff, List.all_eq_true, hcur]
  exact ⟨fun ⟨⟨⟨⟨hr, hq, ho⟩, hline⟩, hqueue⟩, hc⟩ => ⟨hr, hq, ho, hline, hqueue, hc⟩,
    fun h => ⟨⟨⟨⟨h.rbuf_length, h.queue_length, h.obuf_length⟩, h.rbuf_ok⟩, h.queue_ok⟩, h.cur_ok⟩⟩

/-- A line byte that is neither CR nor LF keeps the pending line clean. -/
theorem lineOk_concat (l : List Byte) (b : Byte) (hl : lineOk l = true) (hcr : b ≠ chCR) (hlf : b ≠ chLF) :
    lineOk (l ++ [b]) = true := by
  simp_all [lineOk]

/-- A pending line that RX.LF emits is a well-formed message (R153). -/
theorem msgOk_pendingLine {s : State} (h : InvParts s) (hd : s.rbuf.head? = some chDollar) :
    msgOk (.fromSerial s.rbuf) = true := by
  have hcap : s.rbuf.length ≤ cfg.rcap := h.rbuf_length
  simp [msgOk, bufOk, hd, hcap, h.rbuf_ok]

theorem InvParts.enqueued {m : Msg} {src : Producer} {s u : State} (h : InvParts s) (hm : msgOk m = true)
    (hu : Enqueued m src s u) : InvParts u := by
  cases hu with
  | kept room =>
    refine { h with queue_length := ?len, queue_ok := ?ok }
    case len => simpa using room
    case ok =>
      intro x hx
      rcases List.mem_append.1 hx with hold | hnew
      · exact h.queue_ok x hold
      · rwa [List.mem_singleton.1 hnew]
  | dropped full => exact { h with }

/-- The pending line restarts empty after RX.LF (R152). -/
theorem InvParts.clearLine {s : State} (h : InvParts s) : InvParts { s with rbuf := [] } :=
  { h with rbuf_length := Nat.zero_le _, rbuf_ok := rfl }

theorem InvParts.reset (rest : List Token) (n : Nat) : InvParts { State.reset with inputs := rest, freeCtr := n } := by
  constructor <;> simp [State.reset, lineOk]

/-- Every kind of step keeps the parts of the invariant. -/
theorem InvParts.of_stepEffect {s t : State} (h : InvParts s) (ht : StepEffect s t) : InvParts t := by
  cases ht with
  | noLine _ => exact h
  | cr rest _ => exact { h with }
  | lfEmit rest _ hd u hu =>
    have hwithout : InvParts { s with inputs := rest } := { h with }
    exact (hwithout.enqueued (msgOk_pendingLine h hd) hu).clearLine
  | lfDiscard rest _ _ => exact { h.clearLine with }
  | data rest b _ hcr hlf room =>
    exact { h with rbuf_length := by simpa using room, rbuf_ok := lineOk_concat _ _ h.rbuf_ok hcr hlf }
  | dataFull rest b _ _ _ _ => exact { h with }
  | can rest f _ u hu =>
    have hwithout : InvParts { s with inputs := rest } := { h with }
    exact hwithout.enqueued rfl hu
  | deqWait rest _ _ => exact { h with }
  | deq rest _ m q hc hq =>
    have hlen := h.queue_length
    have hok := h.queue_ok
    rw [hq] at hlen hok
    refine { h with queue_length := (Nat.le_succ _).trans hlen, queue_ok := ?_, cur_ok := ?_ }
    · exact fun x hx => hok x (List.mem_cons_of_mem _ hx)
    · rintro x ⟨⟩
      exact hok _ List.mem_cons_self
  | execWait rest r _ _ => exact { h with }
  | exec rest r _ m hc out tx ev ho _ _ =>
    refine { h with obuf_length := ?_, cur_ok := nofun }
    cases out with
    | none => exact h.obuf_length
    | some o => obtain ⟨body, _, _, hlen⟩ := ho o rfl; exact hlen
  | reset rest _ => exact .reset rest _

/-- Settles O48: the step's effect keeps each part of the invariant. -/
theorem everyStepKeepsTheInvariant : Obligations.EveryStepKeepsTheInvariant := by
  unfold Obligations.EveryStepKeepsTheInvariant
  intro s t hinv hstep
  exact (inv_iff_parts t).2 (((inv_iff_parts s).1 hinv).of_stepEffect (step_inversion hstep))

/-- Settles O47: the reset state is the base case of O48. -/
theorem resetStateMeetsTheInvariant : Obligations.ResetStateMeetsTheInvariant := by
  unfold Obligations.ResetStateMeetsTheInvariant
  exact (inv_iff_parts _).2 (.reset [] 0)

end Sys2Proof.Machine
end

section
/-! What a step adds to the output traces and the counter (10_state.md R28, R36, R44 h), said once for the claims about
them. -/

namespace Sys2Proof.Machine

/-- `t` has the traces of `s`, extended by at most one generated sentence, frames an encoder built and at most one
event; and its counter is not below that of `s`. -/
def TracesExtended (s t : State) : Prop :=
  ∃ (out : Option (List Byte)) (tx : List (Frame × BusAnswer)) (ev : List Event),
    (∀ o, out = some o → generated o) ∧ (∀ x ∈ tx, ∃ v, x.1 = hdtFrame v ∨ x.1 = dptFrame v) ∧ ev.length ≤ 1 ∧
      t.serTx = s.serTx ++ out.getD [] ∧ t.busTx = s.busTx ++ tx ∧ t.diag = s.diag ++ ev ∧
      s.bpCount.toNat ≤ t.bpCount.toNat

/-- Where the traces and the counter are the same. -/
theorem TracesExtended.same {s t : State} (hser : t.serTx = s.serTx) (hbus : t.busTx = s.busTx)
    (hdiag : t.diag = s.diag) (hbp : t.bpCount = s.bpCount) : TracesExtended s t :=
  ⟨none, [], [], nofun, nofun, Nat.zero_le _, by simp [hser], by simp [hbus], by simp [hdiag], by simp [hbp]⟩

/-- An enqueue adds nothing, or the event of the drop. -/
theorem TracesExtended.enqueued {m : Msg} {src : Producer} {s u : State} (h : Enqueued m src s u) :
    TracesExtended s u := by
  cases h with
  | kept room => exact .same rfl rfl rfl rfl
  | dropped full =>
    exact ⟨none, [], [.backpressure src], nofun, nofun, Nat.le_refl _, by simp, by simp, rfl, le_satInc _⟩

/-- Every step extends the traces, but for RESET, which empties them. -/
theorem StepEffect.traces {s t : State} (h : StepEffect s t) :
    TracesExtended s t ∨ s.inputs.head? = some .reset ∧ t.serTx = [] ∧ t.busTx = [] := by
  cases h with
  | noLine _ => exact .inl (.same rfl rfl rfl rfl)
  | cr rest _ => exact .inl (.same rfl rfl rfl rfl)
  | lfEmit rest _ _ u hu => exact .inl (show TracesExtended { s with inputs := rest } u from .enqueued hu)
  | lfDiscard rest _ _ => exact .inl (.same rfl rfl rfl rfl)
  | data rest b _ _ _ _ => exact .inl (.same rfl rfl rfl rfl)
  | dataFull rest b _ _ _ _ => exact .inl (.same rfl rfl rfl rfl)
  | can rest f _ u hu => exact .inl (show TracesExtended { s with inputs := rest } t from .enqueued hu)
  | deqWait rest _ _ => exact .inl (.same rfl rfl rfl rfl)
  | deq rest _ m q _ _ => exact .inl (.same rfl rfl rfl rfl)
  | execWait rest r _ _ => exact .inl (.same rfl rfl rfl rfl)
  | exec rest r _ m _ out tx ev ho ht he =>
    exact .inl ⟨out, tx, ev, ho, ht, he, rfl, rfl, rfl, Nat.le_refl _⟩
  | reset rest hline => exact .inr ⟨by rw [hline]; rfl, rfl, rfl⟩

/-- Without a reset line, a step extends the traces. -/
theorem tracesExtended_of_step {s t : State} (hline : s.inputs.head? ≠ some .reset) (hstep : step s = .next t) :
    TracesExtended s t :=
  (step_inversion hstep).traces.resolve_right fun hreset => hline hreset.1

/-- Settles O44: of the three additions of a step, the events are at most one. -/
theorem aStepRaisesAtMostOnce : Obligations.AStepRaisesAtMostOnce := by
  unfold Obligations.AStepRaisesAtMostOnce
  intro s t hline hstep
  obtain ⟨_, _, ev, _, _, hev, _, _, hdiag, _⟩ := tracesExtended_of_step hline hstep
  match ev, hev with
  | [], _ => exact .inl (by rw [hdiag, List.append_nil])
  | [e], _ => exact .inr ⟨e, hdiag⟩

/-- Settles O51: the additions of a step stand at the end of each trace. -/
theorem tracesOnlyGrow : Obligations.TracesOnlyGrow := by
  unfold Obligations.TracesOnlyGrow
  intro s t hline hstep
  obtain ⟨_, _, _, _, _, _, hser, hbus, hdiag, hbp⟩ := tracesExtended_of_step hline hstep
  exact ⟨⟨_, hser⟩, ⟨_, hbus⟩, ⟨_, hdiag⟩, hbp⟩

/-- Settles O50: a step adds at most one generated sentence to the sequence, and RESET leaves the empty one. -/
theorem everyStepKeepsSerialOutputWhole : Obligations.EveryStepKeepsSerialOutputWhole := by
  unfold Obligations.EveryStepKeepsSerialOutputWhole
  rintro s t ⟨outs, houts, hgen⟩ hstep
  rcases (step_inversion hstep).traces with ⟨out, _, _, hout, _, _, hser, _⟩ | ⟨_, hser, _⟩
  · refine ⟨outs ++ out.toList, ?_, fun o ho => ?_⟩
    · rw [hser, houts, List.flatten_append]
      cases out <;> simp
    · rcases List.mem_append.1 ho with hold | hnew
      · exact hgen o hold
      · exact hout o (Option.mem_toList.1 hnew)
  · exact ⟨[], by rw [hser]; rfl, nofun⟩

end Sys2Proof.Machine
end

section
/-! The identifier fields read back, and the frames of the encoders (30_encoding.md R97, R98; 43_sentence_encode.md
R219, R220). -/

namespace Sys2Proof

/-- The priority of a composed identifier is the priority it was composed of (R97, R98). -/
theorem composeId_prio (p : BitVec 3) (g : BitVec 18) (a : Byte) : (composeId p g a).extractLsb' 26 3 = p := by
  have hdropSa : (composeId p g a).extractLsb' 26 3 = (p ++ g).extractLsb' 18 3 :=
    BitVec.extractLsb'_append_eq_of_le (by decide)
  rw [hdropSa, BitVec.extractLsb'_append_eq_left]

/-- The source address of a composed identifier is the one it was composed of (R97, R98). -/
theorem composeId_sa (p : BitVec 3) (g : BitVec 18) (a : Byte) : (composeId p g a).extractLsb' 0 8 = a :=
  BitVec.extractLsb'_append_eq_right

/-- Settles O22: the identifier is `composeId` of its fields, whose number `composeId_toNat` gives and whose fields are
read back one by one. -/
theorem identifierIsItsThreeFields : Obligations.IdentifierIsItsThreeFields := by
  unfold Obligations.IdentifierIsItsThreeFields
  refine ⟨fun f => ?sum, fun p g a f hid => ?fields⟩
  case sum => rw [← composeId_toNat, ← f.id_eq_composeId]
  case fields =>
    rw [Frame.prio, Frame.pgn, Frame.sa, hid]
    exact ⟨composeId_prio p g a, composeId_pgn p g a, composeId_sa p g a⟩

end Sys2Proof

namespace Sys2Proof.Machine

theorem encodedFrame_hdtFrame (raw : Nat) : encodedFrame (hdtFrame raw) :=
  ⟨rfl, rfl, composeId_sa _ _ _, rfl, rfl, rfl, rfl,
    .inl ⟨composeId_pgn _ _ _, composeId_prio _ _ _, rfl, rfl⟩⟩

theorem encodedFrame_dptFrame (raw : Nat) : encodedFrame (dptFrame raw) :=
  ⟨rfl, rfl, composeId_sa _ _ _, rfl, rfl, rfl, rfl, .inr ⟨composeId_pgn _ _ _, composeId_prio _ _ _⟩⟩

/-- Settles O49: what a step adds to the bus are frames of the two encoders, and RESET leaves an empty bus. -/
theorem everyStepKeepsBusFramesEncoded : Obligations.EveryStepKeepsBusFramesEncoded := by
  unfold Obligations.EveryStepKeepsBusFramesEncoded
  intro s t hold hstep x hx
  rcases (step_inversion hstep).traces with ⟨_, tx, _, _, htx, _, _, hbus, _⟩ | ⟨_, _, hbus⟩
  · rw [hbus, List.mem_append] at hx
    rcases hx with hx | hx
    · exact hold x hx
    · obtain ⟨v, hv | hv⟩ := htx x hx
      · exact hv ▸ encodedFrame_hdtFrame v
      · exact hv ▸ encodedFrame_dptFrame v
  · rw [hbus] at hx
    cases hx

end Sys2Proof.Machine
end

section
/-! Decode and encode agree (30_encoding.md R90 to R104): the operands a well-formed decoder or encoder operation admits
are exactly those its encoded form decodes with. -/

namespace Sys2Proof

theorem wfDecode_iff (d : Option Decoder) (f : Frame) :
    wfDecode d f = true ↔ (f.ide = true ∧ f.dlc.toNat ≤ 8) ∧ decoderOf f = d := by
  simp only [wfDecode, Frame.invariantOk, Bool.and_eq_true, decide_eq_true_eq]

theorem wfEncode_iff (e : Option Encoder) (buf : List Byte) (n : Nat) :
    wfEncode e buf n = true ↔ checkSentence true buf = .ok n ∧ encoderOf buf = e := by
  have henf : cfg.csEnforce = true := rfl
  rw [wfEncode, henf, Bool.and_eq_true, decide_eq_true_eq]
  cases checkSentence true buf <;> simp

/-- A buffer that passes the checks passes with the `bodyEnd` of CS.CHK. -/
theorem bodyEnd_of_checkSentence_ok {enforce : Bool} {buf : List Byte} {n : Nat}
    (h : checkSentence enforce buf = .ok n) : n = (csChkVerdict buf).2 := by
  unfold checkSentence at h
  split at h
  · cases h
  · split at h
    · cases h
    · split at h
      · cases h
      · cases h; rfl

/-- The operand of a well-formed decoder operation selects that decoder. -/
theorem decode_canid_of_wf {d : Option Decoder} {f : Frame} (h : wfDecode d f = true) :
    decode (.canid f) = .ok (decoderInstr f d) := by
  obtain ⟨⟨hide, hdlc⟩, rfl⟩ := (wfDecode_iff d f).1 h
  exact decode_canid_of_invariant hide hdlc

/-- The operand of a well-formed encoder operation selects that encoder, with its `bodyEnd`. -/
theorem decode_tag3_of_wf {e : Option Encoder} {buf : List Byte} {n : Nat} (h : wfEncode e buf n = true) :
    decode (.tag3 buf) = .ok (encoderInstr buf n e) := by
  obtain ⟨hchecked, rfl⟩ := (wfEncode_iff e buf n).1 h
  exact decode_tag3_of_checked hchecked

/-- Settles O58: row by row; a decoder or encoder row by the lookup its well-formedness names, RX.DATA by the byte's
class, the rest without operands to check. -/
theorem decodingTheEncodedFormGivesTheOperation : Obligations.DecodingTheEncodedFormGivesTheOperation := by
  unfold Obligations.DecodingTheEncodedFormGivesTheOperation
  intro i hwf
  cases i with
  | rxData b =>
    obtain ⟨hcr, hlf⟩ : b ≠ chCR ∧ b ≠ chLF := by simpa [Instr.wf] using hwf
    rw [encode, decode, decodeByte_data b hcr hlf]
  | decHdt f => exact decode_canid_of_wf hwf
  | decDpt f => exact decode_canid_of_wf hwf
  | decVtg f => exact decode_canid_of_wf hwf
  | decUnrec f => exact decode_canid_of_wf hwf
  | encHdt buf n => exact decode_tag3_of_wf hwf
  | encDpt buf n => exact decode_tag3_of_wf hwf
  | encUnrec buf => exact decode_tag3_of_wf hwf
  | csChk buf =>
    have hne : buf ≠ [] := by simpa [Instr.wf] using hwf
    rw [encode, decode, if_neg hne]
  | rxCr => rfl
  | rxLf => rfl
  | brxEnq f => rfl
  | conDeq => rfl
  | dispatchFromBus => rfl
  | dispatchFromSerial r => rfl
  | csGen body => rfl
  | reset => rfl

/-- What CANID decodes: the frame keeps its invariant, and the operation is that of the table's answer. -/
theorem decode_canid_eq_ok {f : Frame} {i : Instr} (h : decode (.canid f) = .ok i) :
    wfDecode (decoderOf f) f = true ∧ i = decoderInstr f (decoderOf f) := by
  have hinv : f.invariantOk = true := by
    by_contra hbroken
    simp [decode, decodeCanid, hbroken] at h
  have hwf : wfDecode (decoderOf f) f = true := by rw [wfDecode, hinv, decide_eq_true rfl, Bool.and_self]
  rw [decode_canid_of_wf hwf] at h
  exact ⟨hwf, (Except.ok.inj h).symm⟩

/-- What TAG3 decodes: the buffer passes the checks, and the operation is that of the table's answer. -/
theorem decode_tag3_eq_ok {buf : List Byte} {i : Instr} (h : decode (.tag3 buf) = .ok i) :
    wfEncode (encoderOf buf) buf (csChkVerdict buf).2 = true ∧
      i = encoderInstr buf (csChkVerdict buf).2 (encoderOf buf) := by
  have henf : cfg.csEnforce = true := rfl
  cases hcheck : checkSentence true buf with
  | error r => simp [decode, decodeTag3, henf, hcheck] at h
  | ok n =>
    obtain rfl := bodyEnd_of_checkSentence_ok hcheck
    rw [decode_tag3_of_checked hcheck] at h
    exact ⟨(wfEncode_iff _ _ _).2 ⟨hcheck, rfl⟩, (Except.ok.inj h).symm⟩

@[simp] theorem encode_decoderInstr (f : Frame) (d : Option Decoder) : encode (decoderInstr f d) = .canid f := by
  rcases d with _ | _ | _ | _ <;> rfl

@[simp] theorem wf_decoderInstr (f : Frame) (d : Option Decoder) : (decoderInstr f d).wf = wfDecode d f := by
  rcases d with _ | _ | _ | _ <;> rfl

@[simp] theorem encode_encoderInstr (buf : List Byte) (n : Nat) (e : Option Encoder) :
    encode (encoderInstr buf n e) = .tag3 buf := by
  rcases e with _ | _ | _ <;> rfl

/-- ENC.UNREC has no `bodyEnd` of its own: its row takes that of CS.CHK. -/
@[simp] theorem wf_encoderInstr (buf : List Byte) (e : Option Encoder) :
    (encoderInstr buf (csChkVerdict buf).2 e).wf = wfEncode e buf (csChkVerdict buf).2 := by
  rcases e with _ | _ | _ <;> rfl

/-- What BYTE decodes is well formed and encodes to the byte. -/
theorem decodeByte_wf_encode (b : Byte) : (decodeByte b).wf = true ∧ encode (decodeByte b) = .byte b := by
  rcases byte_class b with rfl | rfl | ⟨hcr, hlf⟩
  · exact ⟨rfl, rfl⟩
  · exact ⟨rfl, rfl⟩
  · rw [decodeByte_data b hcr hlf]
    exact ⟨by simp [Instr.wf, hcr, hlf], rfl⟩

/-- What MSG decodes encodes back with its tag; DISPATCH.FROMBUS has no answer to keep. -/
theorem decodeMsg_wf_encode (tag : BitVec 1) (r : BusAnswer) : (decodeMsg tag r).wf = true ∧
    (encode (decodeMsg tag r) = .msg tag r ∨ tag = 0#1 ∧ decodeMsg tag r = .dispatchFromBus) := by
  by_cases htag : tag = 0#1
  · subst htag
    exact ⟨rfl, .inr ⟨rfl, rfl⟩⟩
  · obtain rfl : tag = 1#1 := by bv_omega
    exact ⟨rfl, .inl rfl⟩

/-- Settles O59: format by format, by what each decodes to. -/
theorem whatDecodesIsWellFormedAndEncodesBack : Obligations.WhatDecodesIsWellFormedAndEncodesBack := by
  unfold Obligations.WhatDecodesIsWellFormedAndEncodesBack
  intro w i h
  cases w with
  | byte b =>
    cases h
    exact ⟨(decodeByte_wf_encode b).1, .inl (decodeByte_wf_encode b).2⟩
  | msg tag r =>
    cases h
    obtain ⟨hwf, hback | ⟨rfl, hbus⟩⟩ := decodeMsg_wf_encode tag r
    · exact ⟨hwf, .inl hback⟩
    · exact ⟨hwf, .inr ⟨r, rfl, hbus⟩⟩
  | canid f =>
    obtain ⟨hwf, rfl⟩ := decode_canid_eq_ok h
    exact ⟨by rwa [wf_decoderInstr], .inl (encode_decoderInstr _ _)⟩
  | tag3 buf =>
    obtain ⟨hwf, rfl⟩ := decode_tag3_eq_ok h
    exact ⟨by rwa [wf_encoderInstr], .inl (encode_encoderInstr _ _ _)⟩
  | chk buf =>
    rw [decode] at h
    split at h
    · cases h
    · next hne =>
      cases h
      exact ⟨by simpa [Instr.wf] using hne, .inl rfl⟩
  | frame f => cases h; exact ⟨rfl, .inl rfl⟩
  | state => cases h; exact ⟨rfl, .inl rfl⟩
  | gen body => cases h; exact ⟨rfl, .inl rfl⟩
  | reset => cases h; exact ⟨rfl, .inl rfl⟩

end Sys2Proof
end

section
/-! The queue's operations, RX.LF, RESET and the events, each with its equation (41_reassembler.md, 44_queue_dispatch.md,
60_exceptions.md, 70_reset_and_hazards.md). -/

namespace Sys2Proof.Machine

/-- The increment of the counter with its width written out (R36). -/
theorem satInc_eq (c : BitVec 32) : satInc c = BitVec.ofNat 32 (min (c.toNat + 1) (2 ^ 32 - 1)) := rfl

theorem enqueue_of_room (m : Msg) (src : Producer) (s : State) (h : s.queue.length < 32) :
    enqueue m src s = { s with queue := s.queue ++ [m] } := by
  have hroom : s.queue.length < cfg.qcap := h
  rw [enqueue, if_pos hroom]

theorem enqueue_of_full (m : Msg) (src : Producer) (s : State) (h : 32 ≤ s.queue.length) :
    enqueue m src s = { s with bpCount := satInc s.bpCount, diag := s.diag ++ [.backpressure src] } := by
  have hfull : ¬ s.queue.length < cfg.qcap := Nat.not_lt.2 h
  rw [enqueue, if_neg hfull, raise]

/-- BRX.ENQ is the enqueue of its frame, whatever the frame (R253). -/
theorem exec_brxEnq (f : Frame) (s : State) : exec (.brxEnq f) s = .next (enqueue (.fromBus f) .bus s) := rfl

theorem exec_conDeq (s : State) : exec .conDeq s = .next (dequeue s) := rfl

theorem exec_rxLf_emits (s : State) (h : s.rbuf.head? = some chDollar) :
    exec .rxLf s = .next { enqueue (.fromSerial s.rbuf) .ser s with rbuf := [] } := by
  rw [exec, execRxLf, if_pos h]

theorem exec_rxLf_discards (s : State) (h : s.rbuf.head? ≠ some chDollar) :
    exec .rxLf s = .next { s with rbuf := [] } := by
  rw [exec, execRxLf, if_neg h]

theorem exec_reset (s : State) :
    exec .reset s = .next { State.reset with inputs := s.inputs, freeCtr := s.freeCtr } := rfl

/-- Settles O5: the two clauses are the branches of the capacity test. -/
theorem enqueueAppendsOrDropsTheNewMessage : Obligations.EnqueueAppendsOrDropsTheNewMessage := by
  unfold Obligations.EnqueueAppendsOrDropsTheNewMessage
  intro m src s
  refine ⟨enqueue_of_room m src s, fun hfull => ?_⟩
  rw [enqueue_of_full m src s hfull, satInc_eq]

/-- Settles O6: BRX.ENQ reads nothing of its frame and is the enqueue of O5. -/
theorem brxEnqQueuesEveryFrameUnchecked : Obligations.BrxEnqQueuesEveryFrameUnchecked := by
  unfold Obligations.BrxEnqQueuesEveryFrameUnchecked
  intro s f
  rw [exec_brxEnq]
  refine ⟨fun hroom => ?_, fun hfull => ?_⟩
  · rw [enqueue_of_room _ _ s hroom]
  · rw [enqueue_of_full _ _ s hfull, satInc_eq]

/-- Settles O2: an emitted line goes through the enqueue, a discarded one does not. -/
theorem rxLfEmitsOrDiscardsThePendingLine : Obligations.RxLfEmitsOrDiscardsThePendingLine := by
  unfold Obligations.RxLfEmitsOrDiscardsThePendingLine
  intro s
  refine ⟨fun hdollar hroom => ?_, fun hdollar hfull => ?_, exec_rxLf_discards s⟩
  · rw [exec_rxLf_emits s hdollar, enqueue_of_room _ _ s hroom]
  · rw [exec_rxLf_emits s hdollar, enqueue_of_full _ _ s hfull, satInc_eq]

/-- Settles O8: the enabled dequeue; `qhead` counts in `Fin 32`, so its increment wraps. -/
theorem conDeqTakesTheOldestMessage : Obligations.ConDeqTakesTheOldestMessage := by
  unfold Obligations.ConDeqTakesTheOldestMessage
  intro s m rest hcur hqueue
  rw [exec_conDeq, dequeue_enabled s m rest hcur hqueue]
  exact ⟨rfl, Fin.val_add s.qhead 1⟩

/-- Settles O41: the model builds every report with this one update. -/
theorem raiseAppendsOneEventOnly : Obligations.RaiseAppendsOneEventOnly := by
  unfold Obligations.RaiseAppendsOneEventOnly
  intro e s
  rw [raise]

/-- The event of a pair of codes: R290 and R297 read backwards. -/
def eventOfCodes : Nat × Nat → Option Event
  | (1, 1) => some (.unrecognizedIdentifier .pgn)
  | (1, 2) => some (.unrecognizedIdentifier .tag)
  | (2, 1) => some (.malformedInput .noDollar)
  | (2, 2) => some (.malformedInput .tooShort)
  | (2, 3) => some (.malformedInput .badChecksumFormat)
  | (2, 4) => some (.malformedInput .checksumMismatch)
  | (2, 5) => some (.malformedInput .fieldMissing)
  | (2, 6) => some (.malformedInput .fieldEmpty)
  | (2, 7) => some (.malformedInput .notNumeric)
  | (2, 8) => some (.malformedInput .outOfRange)
  | (2, 9) => some (.malformedInput .frameShort)
  | (2, 10) => some (.malformedInput .frameInvariant)
  | (2, 11) => some (.malformedInput .outputOverflow)
  | (3, 1) => some (.backpressure .bus)
  | (3, 2) => some (.backpressure .ser)
  | (4, 1) => some (.transportFailure .timeout)
  | (4, 2) => some (.transportFailure .error)
  | _ => none

/-- The codes of an event determine it (R296). -/
theorem eventOfCodes_codes (e : Event) : eventOfCodes e.codes = some e := by
  cases e with
  | unrecognizedIdentifier r => cases r <;> rfl
  | malformedInput r => cases r <;> rfl
  | backpressure src => cases src <;> rfl
  | transportFailure r => cases r <;> rfl

/-- Settles O42: the table entry by entry; it has an inverse, so no two events share a pair. -/
theorem eventCodesAreThoseOfTheTable : Obligations.EventCodesAreThoseOfTheTable := by
  unfold Obligations.EventCodesAreThoseOfTheTable
  refine ⟨rfl, rfl, rfl, rfl, rfl, rfl, rfl, rfl, rfl, rfl, rfl, rfl, rfl, rfl, rfl, rfl, rfl, fun a b hcodes => ?_⟩
  have hevents := congrArg eventOfCodes hcodes
  rw [eventOfCodes_codes, eventOfCodes_codes] at hevents
  exact Option.some.inj hevents

/-- Settles O45: RESET reads nothing of the block, and the reset state is written out field by field. -/
theorem resetClearsTheWholeBlock : Obligations.ResetClearsTheWholeBlock := by
  unfold Obligations.ResetClearsTheWholeBlock
  intro s
  rw [exec_reset, State.reset]

/-- Settles O46: the views of the reset state are its fields. -/
theorem resetStateHasTheSpecsValues : Obligations.ResetStateHasTheSpecsValues := by
  unfold Obligations.ResetStateHasTheSpecsValues
  rw [rcur_eq, qcount_eq, olen_eq, cphase_eq_idle]
  exact ⟨rfl, rfl, rfl, rfl, rfl, rfl, rfl, rfl, rfl⟩

end Sys2Proof.Machine
end

section
/-! The consumer's dispatch arms where they are enabled and where they are not (44_queue_dispatch.md R257 to R259). -/

namespace Sys2Proof.Machine

theorem exec_dispatchFromBus (s : State) (f : Frame) (h : s.cur = some (.fromBus f)) :
    exec .dispatchFromBus s = .next (endExec (dispatchFromBus f s)) := by
  simp only [exec, execDispatchFromBus, h]

theorem exec_dispatchFromBus_waits (s : State) (h : ∀ f, s.cur ≠ some (.fromBus f)) :
    exec .dispatchFromBus s = .next s := by
  rw [exec, execDispatchFromBus]
  split
  · next f hf => exact absurd hf (h f)
  · rfl

theorem exec_dispatchFromSerial (s : State) (buf : List Byte) (r : BusAnswer) (h : s.cur = some (.fromSerial buf)) :
    exec (.dispatchFromSerial r) s = .next (endExec (dispatchFromSerial true buf r s)) := by
  have henf : cfg.csEnforce = true := rfl
  simp only [exec, execDispatchFromSerial, h, henf]

theorem exec_dispatchFromSerial_waits (s : State) (r : BusAnswer) (h : ∀ buf, s.cur ≠ some (.fromSerial buf)) :
    exec (.dispatchFromSerial r) s = .next s := by
  rw [exec, execDispatchFromSerial]
  split
  · next buf hbuf => exact absurd hbuf (h buf)
  · rfl

/-- Settles O9: each clause excludes the message its arm needs. -/
theorem consumerNotEnabledChangesNothing : Obligations.ConsumerNotEnabledChangesNothing := by
  unfold Obligations.ConsumerNotEnabledChangesNothing
  intro s
  rw [cphase_eq_busy, cphase_eq_idle, qcount_eq, List.length_eq_zero_iff, exec_conDeq]
  refine ⟨fun hwait => ?_, fun hidle => ⟨?_, fun r => ?_⟩, fun buf hcur => ?_, fun f r hcur => ?_⟩
  · rw [dequeue_waits s hwait]
  · exact exec_dispatchFromBus_waits s (by simp [hidle])
  · exact exec_dispatchFromSerial_waits s r (by simp [hidle])
  · exact exec_dispatchFromBus_waits s (by simp [hcur])
  · exact exec_dispatchFromSerial_waits s r (by simp [hcur])

end Sys2Proof.Machine
end

section
/-! One step by the line it takes (30_encoding.md R117). -/

namespace Sys2Proof.Machine

theorem step_of_noLine (s : State) (h : s.inputs = []) : step s = .next s := by
  simp only [step, h]

theorem step_of_notEnabled (s : State) (x : Token) (rest : List Token) (h : s.inputs = x :: rest)
    (hw : fetchWord s.cur x = none) : step s = .next { s with inputs := rest } := by
  simp only [step, h, hw]

theorem step_of_decoded (s : State) (x : Token) (rest : List Token) (w : OpWord) (i : Instr)
    (h : s.inputs = x :: rest) (hw : fetchWord s.cur x = some w) (hi : decode w = .ok i) :
    step s = exec i { s with inputs := rest } := by
  simp only [step, h, hw, hi]

/-- Settles O55: the three lemmas above, for the three cases of a step. -/
theorem aStepRunsTheDecodedOperation : Obligations.AStepRunsTheDecodedOperation := by
  unfold Obligations.AStepRunsTheDecodedOperation
  intro s
  exact ⟨step_of_noLine s, fun x rest hline =>
    ⟨step_of_notEnabled s x rest hline, fun w i => step_of_decoded s x rest w i hline⟩⟩

section
variable {s : State} {rest : List Token}

theorem step_rx {b : Byte} (h : s.inputs = .rx b :: rest) :
    step s = exec (decodeByte b) { s with inputs := rest } :=
  step_of_decoded s _ rest _ _ h rfl rfl

theorem step_can {f : Frame} (h : s.inputs = .can f :: rest) : step s = exec (.brxEnq f) { s with inputs := rest } :=
  step_of_decoded s _ rest _ _ h rfl rfl

theorem step_deq (h : s.inputs = .deq :: rest) : step s = exec .conDeq { s with inputs := rest } :=
  step_of_decoded s _ rest _ _ h rfl rfl

theorem step_reset (h : s.inputs = .reset :: rest) : step s = exec .reset { s with inputs := rest } :=
  step_of_decoded s _ rest _ _ h rfl rfl

theorem step_exec_idle {r : BusAnswer} (h : s.inputs = .exec r :: rest) (hcur : s.cur = none) :
    step s = .next { s with inputs := rest } :=
  step_of_notEnabled s _ rest h (by rw [fetchWord, hcur, Option.map_none])

theorem step_exec_busy {r : BusAnswer} {m : Msg} (h : s.inputs = .exec r :: rest) (hcur : s.cur = some m) :
    step s = exec (decodeMsg (msgTag m) r) { s with inputs := rest } :=
  step_of_decoded s _ rest (.msg (msgTag m) r) _ h (by rw [fetchWord, hcur, Option.map_some]) rfl

end

/-- Settles O56: the class of the byte, and the tag of the message in `cur`, name the operation. -/
theorem eachLineIsOneAgentOperation : Obligations.EachLineIsOneAgentOperation := by
  unfold Obligations.EachLineIsOneAgentOperation
  intro s rest
  refine ⟨step_rx (b := chCR) rfl, step_rx (b := chLF) rfl, fun b hcr hlf => ?data, fun f => step_can rfl, step_deq rfl,
    fun f r hcur => step_exec_busy (s := { s with inputs := .exec r :: rest }) rfl hcur,
    fun buf r hcur => step_exec_busy (s := { s with inputs := .exec r :: rest }) rfl hcur, step_reset rfl⟩
  case data => rw [← decodeByte_data b hcr hlf]; exact step_rx rfl

/-- Settles O43: `step_effect` for a step; every arm of `exec` is built with `.next`. -/
theorem everyStepAndOperationAnswersANextState : Obligations.EveryStepAndOperationAnswersANextState := by
  unfold Obligations.EveryStepAndOperationAnswersANextState
  intro s
  obtain ⟨t, ht, _⟩ := step_effect s
  exact ⟨⟨t, ht⟩, fun i => by cases i <;> exact ⟨_, rfl⟩⟩

end Sys2Proof.Machine

namespace Sys2Proof

/-- Settles O57: closed decodings, each evaluated. -/
theorem tableWordsDecodeToTheirRows : Obligations.TableWordsDecodeToTheirRows := by
  unfold Obligations.TableWordsDecodeToTheirRows
  decide

/-- Settles O60: the tables are those of the configuration; their keys are compared. -/
theorem registriesHaveDistinctKeys : Obligations.RegistriesHaveDistinctKeys := by
  unfold Obligations.RegistriesHaveDistinctKeys
  exact ⟨rfl, rfl, by decide, by decide⟩

end Sys2Proof
end

section
/-! Producers and consumer (20_memory.md section 7): what the line of each agent writes, and that it depends on the
agent's own fields and the queue alone. From this follow the ownership of the state, the exchange of a producer's line
with an `exec` line, and the drain. -/

namespace Sys2Proof.Machine

/-- What an enqueue writes depends on the queue and the counter alone. -/
theorem enqueue_writes (m : Msg) (src : Producer) (queue : List Msg) (bp : BitVec 32) :
    ∃ queue' bp' ev, ∀ s : State, s.queue = queue → s.bpCount = bp →
      enqueue m src s = { s with queue := queue', bpCount := bp', diag := s.diag ++ ev } := by
  by_cases hroom : queue.length < 32
  · refine ⟨queue ++ [m], bp, [], fun s hqueue hbp => ?_⟩
    subst hqueue hbp
    rw [enqueue_of_room m src s hroom, List.append_nil]
  · refine ⟨queue, satInc bp, [.backpressure src], fun s hqueue hbp => ?_⟩
    subst hqueue hbp
    rw [enqueue_of_full m src s (Nat.not_lt.1 hroom)]

/-- A line of one of the two producers: a received byte or a received frame. -/
def producerLine (p : Token) : Prop := (∃ b, p = .rx b) ∨ ∃ f, p = .can f

/-- A producer's line writes the pending line, the queue, the counter and the events, and depends on the first three
alone; a frame leaves the pending line. -/
theorem producerStep_writes (p : Token) (hp : producerLine p) (rbuf : List Byte) (queue : List Msg) (bp : BitVec 32) :
    ∃ rbuf' queue' bp' ev, (∀ f, p = .can f → rbuf' = rbuf) ∧
      ∀ (s : State) (rest : List Token), s.inputs = p :: rest → s.rbuf = rbuf → s.queue = queue → s.bpCount = bp →
        step s = .next
          { s with inputs := rest, rbuf := rbuf', queue := queue', bpCount := bp', diag := s.diag ++ ev } := by
  rcases hp with ⟨b, rfl⟩ | ⟨f, rfl⟩
  · rcases byte_class b with rfl | rfl | ⟨hcr, hlf⟩
    · refine ⟨rbuf, queue, bp, [], nofun, ?_⟩
      rintro s rest hline rfl rfl rfl
      rw [step_rx hline, decodeByte_cr, exec_rxCr, List.append_nil]
    · by_cases hdollar : rbuf.head? = some chDollar
      · obtain ⟨queue', bp', ev, henq⟩ := enqueue_writes (.fromSerial rbuf) .ser queue bp
        refine ⟨[], queue', bp', ev, nofun, ?_⟩
        rintro s rest hline rfl rfl rfl
        rw [step_rx hline, decodeByte_lf, exec_rxLf_emits { s with inputs := rest } hdollar,
          henq { s with inputs := rest } rfl rfl]
      · refine ⟨[], queue, bp, [], nofun, ?_⟩
        rintro s rest hline rfl rfl rfl
        rw [step_rx hline, decodeByte_lf, exec_rxLf_discards { s with inputs := rest } hdollar, List.append_nil]
    · refine ⟨if rbuf.length < 81 then rbuf ++ [b] else rbuf, queue, bp, [], nofun, ?_⟩
      rintro s rest hline rfl rfl rfl
      rw [step_rx hline, decodeByte_data b hcr hlf, exec_rxData, List.append_nil]
      split <;> rfl
  · obtain ⟨queue', bp', ev, henq⟩ := enqueue_writes (.fromBus f) .bus queue bp
    refine ⟨rbuf, queue', bp', ev, fun _ _ => rfl, ?_⟩
    rintro s rest hline rfl rfl rfl
    rw [step_can hline, exec_brxEnq, henq { s with inputs := rest } rfl rfl]

/-- An `exec` line writes `cur`, `obuf` and the traces, and what it adds depends on `cur` and ENV's answer alone. -/
theorem execStep_writes (cur : Option Msg) (r : BusAnswer) :
    ∃ (out : Option (List Byte)) (tx : List (Frame × BusAnswer)) (ev : List Event),
      ∀ (s : State) (rest : List Token), s.inputs = .exec r :: rest → s.cur = cur →
        step s = .next
          { s with
            inputs := rest
            cur := none
            obuf := out.getD s.obuf
            serTx := s.serTx ++ out.getD []
            busTx := s.busTx ++ tx
            diag := s.diag ++ ev } := by
  cases cur with
  | none =>
    refine ⟨none, [], [], fun s rest hline hcur => ?_⟩
    rw [step_exec_idle hline hcur, ← hcur]
    simp only [Option.getD_none, List.append_nil]
  | some m =>
    obtain ⟨out, tx, ev, -, -, -, hexec⟩ := conExec_cases m r
    exact ⟨out, tx, ev, fun s rest hline hcur => (step_exec_busy hline hcur).trans (hexec _ hcur)⟩

/-- A `deq` line that finds the consumer BUSY or the queue empty is passed (log entry 3). -/
theorem step_deq_waits {s : State} {rest : List Token} (h : s.inputs = .deq :: rest)
    (hwait : s.cur ≠ none ∨ s.queue = []) : step s = .next { s with inputs := rest } := by
  rw [step_deq h, exec_conDeq, dequeue_waits { s with inputs := rest } hwait]

/-- A `deq` line where CON.DEQ is enabled. -/
theorem step_deq_enabled {s : State} {rest : List Token} {m : Msg} {q : List Msg} (h : s.inputs = .deq :: rest)
    (hcur : s.cur = none) (hqueue : s.queue = m :: q) :
    step s = .next { s with inputs := rest, cur := some m, queue := q, qhead := s.qhead + 1 } := by
  rw [step_deq h, exec_conDeq, dequeue_enabled { s with inputs := rest } m q hcur hqueue]

/-- A `deq` line writes `cur`, the queue and `qhead`; the IDLE consumer takes the oldest message, if there is one. -/
theorem deqStep_writes {s : State} {rest : List Token} (h : s.inputs = .deq :: rest) :
    ∃ cur' queue' qhead', step s = .next { s with inputs := rest, cur := cur', queue := queue', qhead := qhead' } ∧
      (s.cur ≠ none ∨ s.queue = [] → queue' = s.queue) ∧ (s.cur = none → queue' = s.queue.tail) := by
  by_cases hwait : s.cur ≠ none ∨ s.queue = []
  · refine ⟨s.cur, s.queue, s.qhead, step_deq_waits h hwait, fun _ => rfl, fun hcur => ?_⟩
    rw [hwait.resolve_left (not_not.2 hcur), List.tail_nil]
  · obtain ⟨hcur, hqueue⟩ := not_or.1 hwait
    obtain ⟨m, q, hmq⟩ := List.exists_cons_of_ne_nil hqueue
    exact ⟨some m, q, s.qhead + 1, step_deq_enabled h (not_not.1 hcur) hmq, fun hw => absurd hw hwait,
      fun _ => by rw [hmq, List.tail_cons]⟩

/-- Settles O52: the fields each agent's line does not write are copied. -/
theorem agentsKeepToTheirOwnState : Obligations.AgentsKeepToTheirOwnState := by
  unfold Obligations.AgentsKeepToTheirOwnState
  intro s t x rest hline hstep
  refine ⟨?byte, ?frame, ?deq, ?exec⟩
  case byte =>
    rintro b rfl
    obtain ⟨_, _, _, _, -, hwrites⟩ := producerStep_writes (.rx b) (.inl ⟨b, rfl⟩) s.rbuf s.queue s.bpCount
    cases (hwrites s rest hline rfl rfl rfl).symm.trans hstep
    exact ⟨rfl, rfl, rfl, rfl, rfl, rfl, rfl, rfl⟩
  case frame =>
    rintro f rfl
    obtain ⟨_, _, _, _, hrbuf, hwrites⟩ := producerStep_writes (.can f) (.inr ⟨f, rfl⟩) s.rbuf s.queue s.bpCount
    cases (hwrites s rest hline rfl rfl rfl).symm.trans hstep
    exact ⟨hrbuf f rfl, rfl, rfl, rfl, rfl, rfl, rfl, rfl, rfl⟩
  case deq =>
    rintro rfl
    obtain ⟨_, _, _, hwrites, -, -⟩ := deqStep_writes hline
    cases hwrites.symm.trans hstep
    exact ⟨rfl, rfl, rfl, rfl, rfl, rfl, rfl, rfl, rfl⟩
  case exec =>
    rintro r rfl
    obtain ⟨_, _, _, hwrites⟩ := execStep_writes s.cur r
    cases (hwrites s rest hline rfl).symm.trans hstep
    exact ⟨rfl, rfl, rfl, rfl, rfl, rfl⟩

/-- A run of two steps, from its two steps. -/
theorem run_two {s t u : State} (h1 : step s = .next t) (h2 : step t = .next u) : run 2 s = .next u := by
  rw [run_succ_of_step 1 h1, run_one, h2]

/-- Settles O53: each of the two lines writes fields the other neither reads nor writes, but for `diag`, where both
append. -/
theorem producerStepCommutesWithExec : Obligations.ProducerStepCommutesWithExec := by
  unfold Obligations.ProducerStepCommutesWithExec
  intro s t u p r rest hp hpe hep
  obtain ⟨rbuf', queue', bp', evp, -, hprod⟩ := producerStep_writes p hp s.rbuf s.queue s.bpCount
  obtain ⟨out, tx, eve, hexec⟩ := execStep_writes s.cur r
  have hprodFirst := hprod { s with inputs := p :: .exec r :: rest } _ rfl rfl rfl rfl
  have hexecFirst := hexec { s with inputs := .exec r :: p :: rest } _ rfl rfl
  cases (run_two hprodFirst (hexec _ rest rfl rfl)).symm.trans hpe
  cases (run_two hexecFirst (hprod _ rest rfl rfl rfl rfl)).symm.trans hep
  refine ⟨rfl, rfl, rfl, rfl, rfl, rfl, rfl, rfl, rfl, ?_⟩
  simp only [List.append_assoc]
  exact List.perm_append_comm.append_left s.diag

/-- How many messages the consumer has still to translate: those queued and the one in hand. -/
def pendingMessages (s : State) : Nat := s.queue.length + s.cur.toList.length

/-- One `step` pair, `deq` then `exec` (R118): the consumer is IDLE after it, and a pending message, if there was one,
is translated. -/
theorem run_stepLines {s : State} {r : BusAnswer} {rest : List Token} (h : s.inputs = stepLines r ++ rest) :
    ∃ t, run 2 s = .next t ∧ t.cur = none ∧ pendingMessages t = pendingMessages s - 1 ∧ t.inputs = rest ∧
      t.rbuf = s.rbuf ∧ t.bpCount = s.bpCount := by
  obtain ⟨cur', queue', qhead', hdeq, hwait, hidle⟩ := deqStep_writes (rest := .exec r :: rest) h
  obtain ⟨_, _, _, hexec⟩ := execStep_writes cur' r
  refine ⟨_, run_two hdeq (hexec _ rest rfl rfl), rfl, ?_, rfl, rfl, rfl⟩
  cases hcur : s.cur with
  | none => simp [pendingMessages, hidle hcur, hcur]
  | some m => simp [pendingMessages, hwait (by simp [hcur]), hcur]

/-- `n` pairs translate `n` pending messages. -/
theorem run_drainLines (n : Nat) {s : State} {rest : List Token} (h : s.inputs = drainLines n ++ rest)
    (hn : pendingMessages s ≤ n) :
    ∃ t, run (2 * n) s = .next t ∧ pendingMessages t = 0 ∧ t.inputs = rest ∧ t.rbuf = s.rbuf ∧
      t.bpCount = s.bpCount := by
  induction n generalizing s with
  | zero => exact ⟨s, run_zero s, Nat.le_zero.1 hn, h, rfl, rfl⟩
  | succ n ih =>
    rw [drainLines, List.append_assoc] at h
    obtain ⟨u, hu, -, hpending, hinputs, hrbuf, hbp⟩ := run_stepLines h
    obtain ⟨t, ht, hdone, hrest, hrbuf', hbp'⟩ := ih hinputs (by omega)
    refine ⟨t, ?_, hdone, hrest, hrbuf'.trans hrbuf, hbp'.trans hbp⟩
    rw [Nat.mul_add_one, Nat.add_comm, run_add (2 * n) hu, ht]

/-- Settles O54: more pairs than queued messages are enough for those and the one in hand, and nothing pending is an
empty queue and an IDLE consumer. -/
theorem drainReachesTheEndOfTheRun : Obligations.DrainReachesTheEndOfTheRun := by
  unfold Obligations.DrainReachesTheEndOfTheRun
  intro s n rest hn hlines
  have hhand : s.cur.toList.length ≤ 1 := by cases s.cur <;> simp
  have hpending : pendingMessages s ≤ n := by rw [pendingMessages]; omega
  obtain ⟨t, hrun, hdone, hrest, hrbuf, hbp⟩ := run_drainLines n hlines hpending
  obtain ⟨hqueue, hcur⟩ := Nat.add_eq_zero_iff.1 hdone
  refine ⟨t, hrun, List.length_eq_zero_iff.1 hqueue, (cphase_eq_idle t).2 ?_, hrest, hrbuf, hbp⟩
  cases hc : t.cur with
  | none => rfl
  | some m => simp [hc] at hcur

end Sys2Proof.Machine
end

section
/-! Runs: a burst of frames, a whole line, and first in, first out (41_reassembler.md, 44_queue_dispatch.md). -/

namespace Sys2Proof.Machine

section
variable {s : State} {rest : List Token}

theorem step_can_room {f : Frame} (h : s.inputs = .can f :: rest) (hroom : s.queue.length < 32) :
    step s = .next { s with inputs := rest, queue := s.queue ++ [.fromBus f] } :=
  (step_can h).trans (congrArg Host.Outcome.next (enqueue_of_room _ _ { s with inputs := rest } hroom))

theorem step_can_full {f : Frame} (h : s.inputs = .can f :: rest) (hfull : 32 ≤ s.queue.length) :
    step s = .next
      { s with inputs := rest, bpCount := satInc s.bpCount, diag := s.diag ++ [.backpressure .bus] } :=
  (step_can h).trans (congrArg Host.Outcome.next (enqueue_of_full _ _ { s with inputs := rest } hfull))

theorem step_rx_cr (h : s.inputs = .rx chCR :: rest) : step s = .next { s with inputs := rest } := step_rx h

theorem step_rx_data {b : Byte} (h : s.inputs = .rx b :: rest) (hcr : b ≠ chCR) (hlf : b ≠ chLF) :
    step s = .next
      (if s.rbuf.length < 81 then { s with inputs := rest, rbuf := s.rbuf ++ [b] } else { s with inputs := rest }) := by
  rw [step_rx h, decodeByte_data b hcr hlf, exec_rxData]

theorem step_rx_lf_emits (h : s.inputs = .rx chLF :: rest) (hdollar : s.rbuf.head? = some chDollar)
    (hroom : s.queue.length < 32) :
    step s = .next { s with inputs := rest, rbuf := [], queue := s.queue ++ [.fromSerial s.rbuf] } := by
  rw [step_rx h, decodeByte_lf, exec_rxLf_emits { s with inputs := rest } hdollar,
    enqueue_of_room _ _ { s with inputs := rest } hroom]

theorem step_rx_lf_discards (h : s.inputs = .rx chLF :: rest) (hdollar : s.rbuf.head? ≠ some chDollar) :
    step s = .next { s with inputs := rest, rbuf := [] } :=
  (step_rx h).trans (exec_rxLf_discards { s with inputs := rest } hdollar)

end

/-- The counter after `n` drops (R36, D23): it stops at its largest value. -/
def satAdd (c : BitVec 32) (n : Nat) : BitVec 32 := BitVec.ofNat 32 (min (c.toNat + n) (2 ^ 32 - 1))

theorem satAdd_zero (c : BitVec 32) : satAdd c 0 = c := by
  have := c.isLt
  rw [satAdd, Nat.add_zero, Nat.min_eq_left (by omega), BitVec.ofNat_toNat, BitVec.setWidth_eq]

theorem satAdd_succ (c : BitVec 32) (n : Nat) : satAdd c (n + 1) = satAdd (satInc c) n := by
  have hinc : (satInc c).toNat = min (c.toNat + 1) (2 ^ 32 - 1) := by
    rw [satInc_eq, BitVec.toNat_ofNat]
    omega
  rw [satAdd, satAdd, hinc]
  congr 1
  omega

/-- Settles O7, by induction on the burst: a frame that finds room extends the queue, and every frame after the queue is
full moves the counter and adds one event. -/
theorem overflowKeepsTheFirst32InOrder : Obligations.OverflowKeepsTheFirst32InOrder := by
  unfold Obligations.OverflowKeepsTheFirst32InOrder
  intro s fs rest hcap hlines
  induction fs generalizing s with
  | nil =>
    have hdrops : s.queue.length + ([] : List Frame).length - 32 = 0 := Nat.sub_eq_zero_of_le hcap
    have hcount := satAdd_zero s.bpCount
    rw [satAdd] at hcount
    rw [hdrops, hcount, List.map_nil, List.append_nil, List.take_of_length_le hcap, List.replicate_zero,
      List.append_nil, List.length_nil, run_zero, ← show s.inputs = rest from hlines]
  | cons f fs ih =>
    by_cases hroom : s.queue.length < 32
    · have hlater : s.queue.length + (f :: fs).length = (s.queue ++ [Msg.fromBus f]).length + fs.length := by
        simp only [List.length_cons, List.length_append, List.length_nil]
        omega
      refine (run_succ_of_step _ (step_can_room hlines hroom)).trans ((ih _ (by simpa using hroom) rfl).trans ?_)
      rw [hlater, List.map_cons, List.append_cons s.queue _ (fs.map Msg.fromBus)]
    · have hfull : s.queue.length = 32 := Nat.le_antisymm hcap (Nat.not_lt.1 hroom)
      have hdrops : s.queue.length + (f :: fs).length - 32 = s.queue.length + fs.length - 32 + 1 := by
        rw [List.length_cons]
        omega
      have hcount := satAdd_succ s.bpCount (s.queue.length + fs.length - 32)
      rw [satAdd, satAdd] at hcount
      refine (run_succ_of_step _ (step_can_full hlines hfull.ge)).trans (Eq.trans (ih _ hcap rfl) ?_)
      rw [hdrops, hcount, List.replicate_succ, List.append_cons s.diag _ (List.replicate _ _),
        List.take_append_of_le_length hfull.ge, List.take_append_of_le_length hfull.ge]

/-- The pending line after some bytes without LF: what was pending and those bytes that are not CR, cut to 81
(R116, R153, R155). -/
def lineAfter (rbuf bs : List Byte) : List Byte := (rbuf ++ bs.filter fun b => b != chCR).take 81

theorem lineAfter_nil {rbuf : List Byte} (h : rbuf.length ≤ 81) : lineAfter rbuf [] = rbuf := by
  rw [lineAfter, List.filter_nil, List.append_nil, List.take_of_length_le h]

theorem lineAfter_cr (rbuf bs : List Byte) : lineAfter rbuf (chCR :: bs) = lineAfter rbuf bs := rfl

theorem lineAfter_data {rbuf : List Byte} {b : Byte} (bs : List Byte) (hcr : b ≠ chCR) :
    lineAfter rbuf (b :: bs) = lineAfter (rbuf ++ [b]) bs := by
  simp [lineAfter, hcr]

theorem lineAfter_full {rbuf : List Byte} (bs : List Byte) (h : rbuf.length = 81) : lineAfter rbuf bs = rbuf := by
  rw [lineAfter, List.take_append_of_le_length h.ge, List.take_of_length_le h.le]

/-- The bytes of a line before its LF, one per step, only collect in the pending line. -/
theorem run_rxLines (bs : List Byte) (s : State) (rest : List Token) (hcap : s.rbuf.length ≤ 81)
    (hlf : ∀ b ∈ bs, b ≠ chLF) (hlines : s.inputs = rxLines bs ++ rest) :
    run bs.length s = .next { s with inputs := rest, rbuf := lineAfter s.rbuf bs } := by
  induction bs generalizing s with
  | nil => rw [lineAfter_nil hcap, List.length_nil, run_zero, ← show s.inputs = rest from hlines]
  | cons b bs ih =>
    have hlf' : ∀ c ∈ bs, c ≠ chLF := fun c hc => hlf c (List.mem_cons_of_mem b hc)
    by_cases hcr : b = chCR
    · subst hcr
      rw [lineAfter_cr]
      exact (run_succ_of_step _ (step_rx_cr hlines)).trans (ih _ hcap hlf' rfl)
    · refine (run_succ_of_step _ (step_rx_data hlines hcr (hlf b List.mem_cons_self))).trans ?_
      split
      · next hroom =>
        rw [lineAfter_data bs hcr]
        exact ih _ (by simpa using hroom) hlf' rfl
      · next hfull =>
        have hlen : s.rbuf.length = 81 := Nat.le_antisymm hcap (Nat.not_lt.1 hfull)
        have hdropped : lineAfter s.rbuf (b :: bs) = lineAfter s.rbuf bs := by
          rw [lineAfter_full _ hlen, lineAfter_full _ hlen]
        rw [hdropped]
        exact ih _ hcap hlf' rfl

/-- Settles O4: the bytes collect in the pending line (`run_rxLines`), and LF emits or discards it. -/
theorem lineIsEmittedWithoutCrCutTo81Bytes : Obligations.LineIsEmittedWithoutCrCutTo81Bytes := by
  unfold Obligations.LineIsEmittedWithoutCrCutTo81Bytes
  intro s bs rest hempty hroom hlf hlines
  rw [rxLines, List.map_append, List.append_assoc] at hlines
  have hrun := run_rxLines bs s (.rx chLF :: rest) (by simp [hempty]) hlf hlines
  have hline : lineAfter s.rbuf bs = (bs.filter fun b => b != chCR).take 81 := by
    rw [lineAfter, hempty, List.nil_append]
  rw [← hline, run_add 1 hrun, run_one]
  refine ⟨fun hdollar => ?emitted, fun hdollar => ?discarded⟩
  case emitted => exact Eq.trans (step_rx_lf_emits rfl hdollar hroom) (by rw [← hempty])
  case discarded => exact Eq.trans (step_rx_lf_discards rfl hdollar) (by rw [← hempty])

/-- A step takes the first line. -/
theorem StepEffect.inputs_eq_tail {s t : State} (h : StepEffect s t) : t.inputs = s.inputs.tail := by
  cases h with
  | noLine hline => rw [hline, List.tail_nil]
  | lfEmit rest hline _ u hu => rw [hline]; cases hu <;> rfl
  | can rest f hline u hu => rw [hline]; cases hu <;> rfl
  | cr rest hline | lfDiscard rest hline | data rest b hline | dataFull rest b hline | deqWait rest hline
  | deq rest hline | execWait rest r hline | exec rest r hline | reset rest hline => rw [hline]; rfl

/-- What a producer's message adds to the queue: itself where there is room. -/
theorem Enqueued.queue_eq {m : Msg} {src : Producer} {s u : State} (h : Enqueued m src s u) :
    u.queue = s.queue ++ if s.queue.length < 32 then [m] else [] := by
  cases h with
  | kept room => rw [if_pos room]
  | dropped full => rw [if_neg (Nat.not_lt.2 full), List.append_nil]

section
variable {s : State} {rest : List Token}

theorem acceptedBy_can {f : Frame} (h : s.inputs = .can f :: rest) :
    acceptedBy s = if s.queue.length < 32 then [.fromBus f] else [] := by
  simp only [acceptedBy, h]

theorem acceptedBy_lf (h : s.inputs = .rx chLF :: rest) (hdollar : s.rbuf.head? = some chDollar) :
    acceptedBy s = if s.queue.length < 32 then [.fromSerial s.rbuf] else [] := by
  simp only [acceptedBy, h, hdollar, true_and]

theorem acceptedBy_rx_silent {b : Byte} (h : s.inputs = .rx b :: rest)
    (hsilent : b ≠ chLF ∨ s.rbuf.head? ≠ some chDollar) : acceptedBy s = [] := by
  simp only [acceptedBy, h]
  rw [if_neg (by tauto)]

theorem takenBy_deq_waits (h : s.inputs = .deq :: rest) (hwait : s.cur ≠ none ∨ s.queue = []) : takenBy s = [] := by
  rcases hwait with hbusy | hempty
  · obtain ⟨m, hm⟩ := Option.ne_none_iff_exists'.1 hbusy
    simp only [takenBy, h, hm]
  · cases hcur : s.cur <;> simp [takenBy, h, hcur, hempty]

theorem takenBy_deq_enabled {m : Msg} {q : List Msg} (h : s.inputs = .deq :: rest) (hcur : s.cur = none)
    (hqueue : s.queue = m :: q) : takenBy s = [m] := by
  simp [takenBy, h, hcur, hqueue]

theorem acceptedBy_consumer {x : Token} (h : s.inputs = x :: rest) (hx : ¬ producerLine x) : acceptedBy s = [] := by
  cases x with
  | rx b => exact absurd (.inl ⟨b, rfl⟩) hx
  | can f => exact absurd (.inr ⟨f, rfl⟩) hx
  | deq => simp only [acceptedBy, h]
  | exec r => simp only [acceptedBy, h]
  | reset => simp only [acceptedBy, h]

theorem takenBy_other {x : Token} (h : s.inputs = x :: rest) (hx : x ≠ .deq) : takenBy s = [] := by
  cases x with
  | deq => exact absurd rfl hx
  | rx b => simp only [takenBy, h]
  | can f => simp only [takenBy, h]
  | exec r => simp only [takenBy, h]
  | reset => simp only [takenBy, h]

end

/-- What a step without RESET accepts goes to the end of the queue, and what it takes comes from the front. -/
theorem StepEffect.queue_append {s t : State} (h : StepEffect s t) (hreset : s.inputs.head? ≠ some .reset) :
    s.queue ++ acceptedBy s = takenBy s ++ t.queue := by
  cases h with
  | noLine hline => simp [acceptedBy, takenBy, hline]
  | cr rest hline =>
    rw [acceptedBy_rx_silent hline (.inl (by decide)), takenBy_other hline nofun, List.append_nil, List.nil_append]
  | lfEmit rest hline hdollar u hu =>
    rw [acceptedBy_lf hline hdollar, takenBy_other hline nofun, List.nil_append, hu.queue_eq]
  | lfDiscard rest hline hdollar =>
    rw [acceptedBy_rx_silent hline (.inr hdollar), takenBy_other hline nofun, List.append_nil, List.nil_append]
  | data rest b hline _ hlf _ =>
    rw [acceptedBy_rx_silent hline (.inl hlf), takenBy_other hline nofun, List.append_nil, List.nil_append]
  | dataFull rest b hline _ hlf _ =>
    rw [acceptedBy_rx_silent hline (.inl hlf), takenBy_other hline nofun, List.append_nil, List.nil_append]
  | can rest f hline u hu => rw [acceptedBy_can hline, takenBy_other hline nofun, List.nil_append, hu.queue_eq]
  | deqWait rest hline hwait =>
    rw [acceptedBy_consumer hline (by simp [producerLine]), takenBy_deq_waits hline hwait, List.append_nil,
      List.nil_append]
  | deq rest hline m q hcur hqueue =>
    rw [acceptedBy_consumer hline (by simp [producerLine]), takenBy_deq_enabled hline hcur hqueue, List.append_nil,
      hqueue, List.singleton_append]
  | execWait rest r hline _ =>
    rw [acceptedBy_consumer hline (by simp [producerLine]), takenBy_other hline nofun, List.append_nil,
      List.nil_append]
  | exec rest r hline =>
    rw [acceptedBy_consumer hline (by simp [producerLine]), takenBy_other hline nofun, List.append_nil,
      List.nil_append]
  | reset rest hline => exact absurd (by rw [hline, List.head?_cons]) hreset

theorem runAccepted_succ {s u : State} (n : Nat) (h : step s = .next u) :
    runAccepted (n + 1) s = acceptedBy s ++ runAccepted n u := by
  simp only [runAccepted, h]

theorem runTaken_succ {s u : State} (n : Nat) (h : step s = .next u) :
    runTaken (n + 1) s = takenBy s ++ runTaken n u := by
  simp only [runTaken, h]

/-- Settles O10, by induction on the steps: `StepEffect.queue_append` for the first, and the rest of the run from the
state after it. -/
theorem dequeueOrderIsEnqueueOrder : Obligations.DequeueOrderIsEnqueueOrder := by
  unfold Obligations.DequeueOrderIsEnqueueOrder
  intro n s t hreset hrun
  induction n generalizing s with
  | zero =>
    cases (run_zero s).symm.trans hrun
    exact List.append_nil _
  | succ n ih =>
    obtain ⟨u, hstep, heffect⟩ := step_effect s
    have hfirst : s.inputs.head? ≠ some .reset := by
      cases hline : s.inputs with
      | nil => nofun
      | cons x rest => simpa [hline] using hreset x (by simp [hline])
    have hlater : ∀ x ∈ u.inputs.take n, x ≠ .reset := by
      intro x hx
      rw [heffect.inputs_eq_tail] at hx
      refine hreset x ?_
      cases hline : s.inputs with
      | nil => simp [hline] at hx
      | cons y rest => rw [hline] at hx; exact List.mem_cons_of_mem y hx
    rw [run_succ_of_step n hstep] at hrun
    calc s.queue ++ runAccepted (n + 1) s
      _ = takenBy s ++ (u.queue ++ runAccepted n u) := by
        rw [runAccepted_succ n hstep, ← List.append_assoc, heffect.queue_append hfirst, List.append_assoc]
      _ = takenBy s ++ (runTaken n u ++ t.queue) := by rw [ih u hlater hrun]
      _ = runTaken (n + 1) s ++ t.queue := by rw [runTaken_succ n hstep, List.append_assoc]

end Sys2Proof.Machine
end

section
/-! The checks of a sentence buffer (43_sentence_encode.md R211, R212), one lemma per outcome. -/

namespace Sys2Proof

theorem checkSentence_noDollar (enforce : Bool) {buf : List Byte} (h : buf.head? ≠ some chDollar) :
    checkSentence enforce buf = .error .noDollar := by
  rw [checkSentence, if_pos h]

theorem checkSentence_tooShort (enforce : Bool) {buf : List Byte} (hdollar : buf.head? = some chDollar)
    (hlen : buf.length < 6) : checkSentence enforce buf = .error .tooShort := by
  rw [checkSentence, if_neg (not_not.2 hdollar), if_pos hlen]

section
variable {enforce : Bool} {buf : List Byte} (hdollar : buf.head? = some chDollar) (hlen : 6 ≤ buf.length)
include hdollar hlen

theorem checkSentence_verdict_fails {r : MalReason} (h : verdictReason enforce (csChkVerdict buf).1 = some r) :
    checkSentence enforce buf = .error r := by
  rw [checkSentence, if_neg (not_not.2 hdollar), if_neg (Nat.not_lt.2 hlen), h]

theorem checkSentence_verdict_passes (h : verdictReason enforce (csChkVerdict buf).1 = none) :
    checkSentence enforce buf = .ok (csChkVerdict buf).2 := by
  rw [checkSentence, if_neg (not_not.2 hdollar), if_neg (Nat.not_lt.2 hlen), h]

end

theorem verdictReason_not_enforced (v : Verdict) : verdictReason false v = none := by
  cases v <;> rfl

/-- Settles O13: the outcomes in the order of the checks, the last by the verdict. -/
theorem sentenceChecksReportTheFirstFailure : Obligations.SentenceChecksReportTheFirstFailure := by
  unfold Obligations.SentenceChecksReportTheFirstFailure
  intro buf
  refine ⟨checkSentence_noDollar true, checkSentence_tooShort true, fun hdollar hlen => ⟨fun hbad => ?_,
    fun hmis => ?_, fun hpass => ?_⟩⟩
  · exact checkSentence_verdict_fails hdollar hlen (by rw [hbad, verdictReason])
  · exact checkSentence_verdict_fails hdollar hlen (by rw [hmis, verdictReason])
  · refine checkSentence_verdict_passes hdollar hlen ?_
    rcases hpass with hmatch | habsent
    · rw [hmatch, verdictReason] <;> nofun
    · rw [habsent, verdictReason] <;> nofun

/-- Settles O14: without enforcement no verdict has a reason. -/
theorem withoutEnforcementEveryVerdictPasses : Obligations.WithoutEnforcementEveryVerdictPasses := by
  unfold Obligations.WithoutEnforcementEveryVerdictPasses
  intro buf hdollar hlen
  exact checkSentence_verdict_passes hdollar hlen (verdictReason_not_enforced _)

end Sys2Proof
end

section
/-! The dispatch arms as the operations they select (44_queue_dispatch.md R258, R259; 42_frame_decode.md R173;
43_sentence_encode.md R213). -/

namespace Sys2Proof.Machine

theorem dispatchFromSerial_of_error {enforce : Bool} {buf : List Byte} {e : MalReason} (r : BusAnswer) (s : State)
    (h : checkSentence enforce buf = .error e) :
    dispatchFromSerial enforce buf r s = raise (.malformedInput e) s := by
  simp only [dispatchFromSerial, encodeSentence, h, raised]

theorem dispatchFromBus_of_broken {f : Frame} (s : State) (h : f.ide = false ∨ 8 < f.dlc.toNat) :
    dispatchFromBus f s = raise (.malformedInput .frameInvariant) s := by
  have hbroken : ¬ f.invariantOk = true := by
    simp only [Frame.invariantOk, Bool.and_eq_true, decide_eq_true_eq, not_and_or, Bool.not_eq_true, Nat.not_le]
    exact h
  rw [dispatchFromBus, if_neg hbroken]

/-- Settles O15: the first check fails, whatever ENV would answer. -/
theorem noFrameWithoutLeadingDollar : Obligations.NoFrameWithoutLeadingDollar := by
  unfold Obligations.NoFrameWithoutLeadingDollar
  intro s buf r hcur hdollar
  rw [exec_dispatchFromSerial s buf r hcur, dispatchFromSerial_of_error r s (checkSentence_noDollar true hdollar),
    raise, endExec]

/-- The encoder the table answers, called by itself, is the translation of a checked buffer. -/
theorem exec_encoderInstr {buf : List Byte} {n : Nat} (s : State) (h : checkSentence true buf = .ok n) :
    exec (encoderInstr buf n (encoderOf buf)) s = .next (returning .frame (encodeSentence true buf s)) := by
  simp only [encodeSentence, h]
  rcases encoderOf buf with _ | _ | _ <;> rfl

/-- The decoder the table answers, called by itself, is the translation of the frame. -/
theorem exec_decoderInstr (f : Frame) (s : State) :
    exec (decoderInstr f (decoderOf f)) s = .next (returning .sentence (decodeFrame f s)) := by
  rw [decodeFrame]
  rcases decoderOf f with _ | _ | _ | _ <;> rfl

/-- Settles O12: the translation of a checked buffer raises one event or answers a frame, and the frame is submitted. -/
theorem dispatchFromSerialRunsTheSelectedEncoder : Obligations.DispatchFromSerialRunsTheSelectedEncoder := by
  unfold Obligations.DispatchFromSerialRunsTheSelectedEncoder
  intro s buf r hcur
  rw [exec_dispatchFromSerial s buf r hcur]
  refine ⟨fun e hfail => ?_, fun n hpass => ⟨_, _, decode_tag3_of_checked hpass, exec_encoderInstr s hpass, ?_⟩⟩
  · rw [dispatchFromSerial_of_error r s hfail, raise, endExec]
  · rw [dispatchFromSerial]
    rcases encodeSentence_cases true buf with ⟨e, hraise⟩ | ⟨f, _, hframe⟩
    · rw [hraise s]
      simp [returning, endExec, raise, frameOf, submitted, submitEvents]
    · rw [hframe s]
      cases r <;>
        simp [returning, endExec, frameOf, submitted, submitEvents, submitBus_ok, submitBus_timeout, submitBus_error]

/-- Settles O11: a broken frame is reported; the translation of any other raises one event or answers a sentence, which
is written. -/
theorem dispatchFromBusRunsTheSelectedDecoder : Obligations.DispatchFromBusRunsTheSelectedDecoder := by
  unfold Obligations.DispatchFromBusRunsTheSelectedDecoder
  intro s f hcur
  rw [exec_dispatchFromBus s f hcur]
  refine ⟨fun hbroken => ?_, fun hide hdlc =>
    ⟨_, _, decode_canid_of_invariant hide hdlc, exec_decoderInstr f s, ?_⟩⟩
  · rw [dispatchFromBus_of_broken s hbroken, raise, endExec]
  · have hinv : f.invariantOk = true := by rw [Frame.invariantOk, hide, decide_eq_true hdlc, Bool.and_self]
    rw [dispatchFromBus, if_pos hinv]
    rcases decodeFrame_cases f with ⟨e, hraise⟩ | ⟨out, _, hout⟩
    · rw [hraise s]
      simp [returning, endExec, raise, sentenceOf]
    · rw [hout s]
      simp [returning, endExec, emitSerial, sentenceOf]

end Sys2Proof.Machine
end

section
/-! The three decoders (42_frame_decode.md R178 to R185): too short, or the sealed body, and the bodies written out. -/

namespace Sys2Proof.Machine

section
variable {f : Frame} (s : State)

theorem decHdt_short (h : f.dlc.toNat < 3) : decHdt f s = raised (.malformedInput .frameShort) s := if_pos h

theorem decDpt_short (h : f.dlc.toNat < 5) : decDpt f s = raised (.malformedInput .frameShort) s := if_pos h

theorem decVtg_short (h : f.dlc.toNat < 6) : decVtg f s = raised (.malformedInput .frameShort) s := if_pos h

theorem decHdt_stores (h : 3 ≤ f.dlc.toNat) :
    decHdt f s = ({ s with obuf := csGenBytes (hdtBody (rawHeading f)) },
      some (csGenBytes (hdtBody (rawHeading f)))) :=
  (if_neg (Nat.not_lt.2 h)).trans (storeOut_fits _ s (hdt_fits f))

theorem decDpt_stores (h : 5 ≤ f.dlc.toNat) :
    decDpt f s = ({ s with obuf := csGenBytes (dptBody (rawDepth f)) },
      some (csGenBytes (dptBody (rawDepth f)))) :=
  (if_neg (Nat.not_lt.2 h)).trans (storeOut_fits _ s (dpt_fits f))

theorem decVtg_stores (h : 6 ≤ f.dlc.toNat) :
    decVtg f s = ({ s with obuf := csGenBytes (vtgBody (rawCourse f) (rawSpeed f)) },
      some (csGenBytes (vtgBody (rawCourse f) (rawSpeed f)))) :=
  (if_neg (Nat.not_lt.2 h)).trans (storeOut_fits _ s (vtg_fits f))

end

theorem exec_decHdt (f : Frame) (s : State) : exec (.decHdt f) s = .next (returning .sentence (decHdt f s)) := rfl

theorem exec_decDpt (f : Frame) (s : State) : exec (.decDpt f) s = .next (returning .sentence (decDpt f s)) := rfl

theorem exec_decVtg (f : Frame) (s : State) : exec (.decVtg f) s = .next (returning .sentence (decVtg f s)) := rfl

theorem hdtBody_eq (h : Nat) :
    hdtBody h = asc ['H', 'E', 'H', 'D', 'T', ','] ++ fix (rdiv (h * 572958) (10 ^ 7)) 1 ++ asc [',', 'T'] := by
  rw [hdtBody, renderAngle_eq]
  rfl

theorem dptBody_eq (d : Nat) :
    dptBody d = asc ['H', 'E', 'D', 'P', 'T', ','] ++ fix d 2 ++ asc [',', '0', '.', '0', ','] := by
  rw [dptBody, depthText_eq]
  rfl

theorem vtgBody_eq (c v : Nat) :
    vtgBody c v = asc ['H', 'E', 'V', 'T', 'G', ','] ++ fix (rdiv (c * 572958) (10 ^ 7)) 1 ++
      asc [',', 'T', ',', ',', 'M', ','] ++ fix (rdiv (v * 194384) (10 ^ 5)) 2 ++ asc [',', 'N', ','] ++
      fix (rdiv (v * 36) 10) 2 ++ asc [',', 'K'] := by
  rw [vtgBody, renderAngle_eq, knotsText_eq, kmhText_eq]
  rfl

/-- A decoder that stored its sentence, called by itself, returns it too. -/
theorem returning_stored (out : List Byte) (s : State) :
    returning .sentence ({ s with obuf := out }, some out) = { s with obuf := out, ret := some (.sentence out) } := rfl

/-- Settles O17: the short frame, or the sealed body of the heading. -/
theorem decHdtWritesTheHeadingSentence : Obligations.DecHdtWritesTheHeadingSentence := by
  unfold Obligations.DecHdtWritesTheHeadingSentence
  intro s f
  rw [exec_decHdt]
  refine ⟨fun hshort => ?short, fun hlong =>
    ⟨_, _, csGenBytes (hdtBody (rawHeading f)), rawHeading_eq f, hdtBody_eq _, csGenBytes_eq_append _, ?stored⟩⟩
  case short => rw [decHdt_short s hshort, returning_raised, raise]
  case stored => rw [decHdt_stores s hlong, returning_stored]

/-- Settles O18: the short frame, or the sealed body of the depth. -/
theorem decDptWritesTheDepthSentence : Obligations.DecDptWritesTheDepthSentence := by
  unfold Obligations.DecDptWritesTheDepthSentence
  intro s f
  rw [exec_decDpt]
  refine ⟨fun hshort => ?short, fun hlong =>
    ⟨_, _, csGenBytes (dptBody (rawDepth f)), rawDepth_eq f, dptBody_eq _, csGenBytes_eq_append _, ?stored⟩⟩
  case short => rw [decDpt_short s hshort, returning_raised, raise]
  case stored => rw [decDpt_stores s hlong, returning_stored]

/-- Settles O19: the short frame, or the sealed body of course and speed. -/
theorem decVtgWritesTheCourseAndSpeedSentence : Obligations.DecVtgWritesTheCourseAndSpeedSentence := by
  unfold Obligations.DecVtgWritesTheCourseAndSpeedSentence
  intro s f
  rw [exec_decVtg]
  refine ⟨fun hshort => ?short, fun hlong =>
    ⟨_, _, _, csGenBytes (vtgBody (rawCourse f) (rawSpeed f)), rawCourse_eq f, rawSpeed_eq f, vtgBody_eq _ _,
      csGenBytes_eq_append _, ?stored⟩⟩
  case short => rw [decVtg_short s hshort, returning_raised, raise]
  case stored => rw [decVtg_stores s hlong, returning_stored]

/-- The length of a text of characters is their number, one byte each (R11). -/
theorem asc_length (text : List Char) : (asc text).length = text.length := List.length_map _

theorem hdtBody_length (h : Nat) : (hdtBody h).length = 8 + (fix (rdiv (h * 572958) (10 ^ 7)) 1).length := by
  simp only [hdtBody_eq, List.length_append, asc_length, List.length_cons, List.length_nil]
  omega

theorem dptBody_length (d : Nat) : (dptBody d).length = 11 + (fix d 2).length := by
  simp only [dptBody_eq, List.length_append, asc_length, List.length_cons, List.length_nil]
  omega

theorem vtgBody_length (c v : Nat) :
    (vtgBody c v).length = 17 + (fix (rdiv (c * 572958) (10 ^ 7)) 1).length +
      (fix (rdiv (v * 194384) (10 ^ 5)) 2).length + (fix (rdiv (v * 36) 10) 2).length := by
  simp only [vtgBody_eq, List.length_append, asc_length, List.length_cons, List.length_nil]
  omega

/-- Settles O24: the fixed text of each body, and the bounds of its numbers: one to three, eight, four and four digits
before the point. -/
theorem generatedSentencesHaveBoundedLength : Obligations.GeneratedSentencesHaveBoundedLength := by
  unfold Obligations.GeneratedSentencesHaveBoundedLength
  refine ⟨fun h hh => ?hdt, fun d hd => ?dpt, fun c v hc hv => ?vtg⟩
  case hdt =>
    have hmin := fix_length_ge (rdiv (h * 572958) (10 ^ 7)) 1
    have hmax := renderAngle_length_le h hh
    rw [renderAngle_eq] at hmax
    rw [csGenBytes_length, hdtBody_length]
    omega
  case dpt =>
    have hmin := fix_length_ge d 2
    have hmax := fix_length_le d 2 8 (by decide) (by omega)
    rw [csGenBytes_length, dptBody_length]
    omega
  case vtg =>
    have hminAngle := fix_length_ge (rdiv (c * 572958) (10 ^ 7)) 1
    have hminKnots := fix_length_ge (rdiv (v * 194384) (10 ^ 5)) 2
    have hminKmh := fix_length_ge (rdiv (v * 36) 10) 2
    have hmaxAngle := renderAngle_length_le c hc
    have hmaxKnots := knots_length_le v hv
    have hmaxKmh := kmh_length_le v hv
    rw [renderAngle_eq] at hmaxAngle
    rw [knotsText_eq] at hmaxKnots
    rw [kmhText_eq] at hmaxKmh
    rw [csGenBytes_length, vtgBody_length]
    omega

end Sys2Proof.Machine
end

section
/-! What a translation reads of a frame (42_frame_decode.md R171, R183, R185): the PGN, the marker, the length, and the
bytes below the length. -/

namespace Sys2Proof.Machine

/-- Two frames that differ in priority, source address and the bytes at or above the length only. -/
structure SameContent (f g : Frame) : Prop where
  pgn : f.pgn = g.pgn
  ide : f.ide = g.ide
  dlc : f.dlc = g.dlc
  data : ∀ k : Fin 8, k.val < f.dlc.toNat → f.data[k] = g.data[k]

section
variable {f g : Frame} (h : SameContent f g) (s : State)
include h

theorem SameContent.decHdt_eq : decHdt f s = decHdt g s := by
  by_cases hlen : f.dlc.toNat < 3
  · rw [decHdt_short s hlen, decHdt_short s (h.dlc ▸ hlen)]
  · have h1 : f.data[1] = g.data[1] := h.data 1 (by omega)
    have h2 : f.data[2] = g.data[2] := h.data 2 (by omega)
    have hraw : rawHeading f = rawHeading g := by rw [rawHeading_eq, rawHeading_eq, h1, h2]
    rw [decHdt_stores s (Nat.not_lt.1 hlen), decHdt_stores s (h.dlc ▸ Nat.not_lt.1 hlen), hraw]

theorem SameContent.decDpt_eq : decDpt f s = decDpt g s := by
  by_cases hlen : f.dlc.toNat < 5
  · rw [decDpt_short s hlen, decDpt_short s (h.dlc ▸ hlen)]
  · have h1 : f.data[1] = g.data[1] := h.data 1 (by omega)
    have h2 : f.data[2] = g.data[2] := h.data 2 (by omega)
    have h3 : f.data[3] = g.data[3] := h.data 3 (by omega)
    have h4 : f.data[4] = g.data[4] := h.data 4 (by omega)
    have hraw : rawDepth f = rawDepth g := by rw [rawDepth_eq, rawDepth_eq, h1, h2, h3, h4]
    rw [decDpt_stores s (Nat.not_lt.1 hlen), decDpt_stores s (h.dlc ▸ Nat.not_lt.1 hlen), hraw]

theorem SameContent.decVtg_eq : decVtg f s = decVtg g s := by
  by_cases hlen : f.dlc.toNat < 6
  · rw [decVtg_short s hlen, decVtg_short s (h.dlc ▸ hlen)]
  · have h2 : f.data[2] = g.data[2] := h.data 2 (by omega)
    have h3 : f.data[3] = g.data[3] := h.data 3 (by omega)
    have h4 : f.data[4] = g.data[4] := h.data 4 (by omega)
    have h5 : f.data[5] = g.data[5] := h.data 5 (by omega)
    have hcourse : rawCourse f = rawCourse g := by rw [rawCourse_eq, rawCourse_eq, h2, h3]
    have hspeed : rawSpeed f = rawSpeed g := by rw [rawSpeed_eq, rawSpeed_eq, h4, h5]
    rw [decVtg_stores s (Nat.not_lt.1 hlen), decVtg_stores s (h.dlc ▸ Nat.not_lt.1 hlen), hcourse, hspeed]

theorem SameContent.decodeFrame_eq : decodeFrame f s = decodeFrame g s := by
  have hdecoder : decoderOf f = decoderOf g := by rw [decoderOf, decoderOf, h.pgn]
  rw [decodeFrame, decodeFrame, hdecoder]
  rcases decoderOf g with _ | _ | _ | _
  · rfl
  · exact h.decHdt_eq s
  · exact h.decDpt_eq s
  · exact h.decVtg_eq s

theorem SameContent.dispatchFromBus_eq : dispatchFromBus f s = dispatchFromBus g s := by
  rw [dispatchFromBus, dispatchFromBus, Frame.invariantOk, Frame.invariantOk, h.ide, h.dlc, h.decodeFrame_eq s]

end

/-- The FromBus arm does not read the message it holds but for its operand, and `endExec` kills it. -/
theorem endExec_dispatchFromBus_cur (f : Frame) (s : State) (m : Option Msg) :
    endExec (dispatchFromBus f { s with cur := m }) = endExec (dispatchFromBus f s) := by
  rcases dispatchFromBus_cases f with ⟨e, hraise⟩ | ⟨out, _, hout⟩
  · rw [hraise, hraise]; rfl
  · rw [hout, hout]; rfl

/-- Settles O23: both frames run the same arm, on states that differ in the message in hand only. -/
theorem decodingIgnoresPrioritySourceAndOpenBytes : Obligations.DecodingIgnoresPrioritySourceAndOpenBytes := by
  unfold Obligations.DecodingIgnoresPrioritySourceAndOpenBytes
  intro s f g hpgn hide hdlc hdata
  have hsame : SameContent f g := ⟨hpgn, hide, hdlc, hdata⟩
  rw [exec_dispatchFromBus _ f rfl, exec_dispatchFromBus _ g rfl, endExec_dispatchFromBus_cur f s,
    endExec_dispatchFromBus_cur g s, hsame.dispatchFromBus_eq]

end Sys2Proof.Machine
end

section
/-! The numeric primitives (42_frame_decode.md R175, R176; 43_sentence_encode.md R215, R216): rounding, the value of a
string of digits, the fixed-point text, the number grammar, and field 1. -/

namespace Sys2Proof

/-- Settles O25: `rdiv` is a floor division, and a quotient is characterised by its multiple below and the next one
above. -/
theorem rdivIsNearestWithHalvesUp : Obligations.RdivIsNearestWithHalvesUp := by
  unfold Obligations.RdivIsNearestWithHalvesUp
  intro a b q hb
  have hnext : 2 * b * (q + 1) = q * (2 * b) + 2 * b := by ring
  rw [rdiv, Nat.div_eq_iff (by omega), hnext, Nat.mul_comm (2 * b) q]
  omega

theorem isDigit_iff (c : Byte) : isDigit c = true ↔ 0x30 ≤ c.toNat ∧ c.toNat ≤ 0x39 := by
  rw [isDigit, Bool.and_eq_true, decide_eq_true_eq, decide_eq_true_eq]

theorem decDigit_toNat {d : Nat} (h : d < 10) : (decDigit d).toNat = 0x30 + d := by
  rw [decDigit, BitVec.toNat_ofNat]
  omega

theorem isDigit_decDigit {d : Nat} (h : d < 10) : isDigit (decDigit d) = true := by
  rw [isDigit_iff, decDigit_toNat h]
  omega

theorem digitsVal_concat (ds : List Byte) {d : Nat} (h : d < 10) :
    digitsVal (ds ++ [decDigit d]) = 10 * digitsVal ds + d := by
  rw [digitsVal, List.foldl_append, List.foldl_cons, List.foldl_nil, decDigit_toNat h, Nat.add_sub_cancel_left]
  rfl

theorem digitsVal_singleton {d : Nat} (h : d < 10) : digitsVal [decDigit d] = d :=
  (digitsVal_concat [] h).trans (Nat.zero_add d)

theorem decDigitsFuel_all_isDigit (fuel n : Nat) : (decDigitsFuel fuel n).all isDigit = true := by
  induction fuel generalizing n with
  | zero => simp [decDigitsFuel, isDigit_decDigit (Nat.mod_lt n (by decide : 10 > 0))]
  | succ fuel ih =>
    rw [decDigitsFuel]
    split
    · next h => simp [isDigit_decDigit h]
    · rw [List.all_append, ih]
      simp [isDigit_decDigit (Nat.mod_lt n (by decide : 10 > 0))]

theorem fracDigits_all_isDigit (p n : Nat) : (fracDigits p n).all isDigit = true := by
  induction p generalizing n with
  | zero => rfl
  | succ p ih =>
    rw [fracDigits, List.all_append, ih]
    simp [isDigit_decDigit (Nat.mod_lt n (by decide : 10 > 0))]

/-- Enough digits write the whole number. -/
theorem digitsVal_decDigitsFuel (fuel n : Nat) (h : n < 10 ^ (fuel + 1)) : digitsVal (decDigitsFuel fuel n) = n := by
  induction fuel generalizing n with
  | zero =>
    have hmod : n % 10 = n := Nat.mod_eq_of_lt h
    rw [decDigitsFuel, hmod, digitsVal_singleton h]
  | succ fuel ih =>
    rw [decDigitsFuel]
    split
    · next hn => exact digitsVal_singleton hn
    · rw [digitsVal_concat _ (Nat.mod_lt n (by decide)), ih (n / 10) ((Nat.div_lt_iff_lt_mul (by decide)).2 h)]
      omega

/-- A number has no more decimal digits than binary ones. -/
theorem lt_ten_pow_log2 (n : Nat) : n < 10 ^ (n.log2 + 1) :=
  Nat.lt_log2_self.trans_le (Nat.pow_le_pow_left (by decide) _)

theorem digitsVal_decDigits (n : Nat) : digitsVal (decDigits n) = n :=
  digitsVal_decDigitsFuel _ n (lt_ten_pow_log2 n)

theorem decDigits_ne_nil (n : Nat) : decDigits n ≠ [] :=
  List.ne_nil_of_length_pos (decDigitsFuel_length_pos _ n)

/-- The `p` low digits complete the digits of the rest. -/
theorem digitsVal_append_fracDigits (ds : List Byte) (p n : Nat) (h : digitsVal ds = n / 10 ^ p) :
    digitsVal (ds ++ fracDigits p n) = n := by
  induction p generalizing n with
  | zero => simpa [fracDigits] using h
  | succ p ih =>
    have hrest : digitsVal (ds ++ fracDigits p (n / 10)) = n / 10 := by
      apply ih
      rw [h, Nat.div_div_eq_div_mul, pow_succ']
    rw [fracDigits, ← List.append_assoc, digitsVal_concat _ (Nat.mod_lt n (by decide)), hrest]
    omega

/-- A non-empty string of digits is a number without fraction. -/
theorem parseNum_of_digits {f : List Byte} (hne : f ≠ []) (hdigits : f.all isDigit = true) :
    parseNum f = some (digitsVal f, 0) := by
  rw [List.all_eq_true] at hdigits
  have hip : f.takeWhile isDigit = f := List.takeWhile_eq_self_iff.2 hdigits
  have hrest : f.dropWhile isDigit = [] := List.dropWhile_eq_nil_iff.2 hdigits
  simp only [parseNum, hip, hrest, if_neg hne]

/-- Digits, one point, digits. -/
theorem parseNum_of_point {ip fp : List Byte} (hip : ip ≠ []) (hfp : fp ≠ []) (hipDigits : ip.all isDigit = true)
    (hfpDigits : fp.all isDigit = true) :
    parseNum (ip ++ [chDot] ++ fp) = some (digitsVal (ip ++ fp), fp.length) := by
  have hdot : ¬ isDigit chDot = true := by decide
  rw [List.all_eq_true] at hipDigits
  have htake : (ip ++ [chDot] ++ fp).takeWhile isDigit = ip := by
    rw [List.append_assoc, List.takeWhile_append_of_pos hipDigits, List.singleton_append,
      List.takeWhile_cons_of_neg hdot, List.append_nil]
  have hdrop : (ip ++ [chDot] ++ fp).dropWhile isDigit = chDot :: fp := by
    rw [List.append_assoc, List.dropWhile_append_of_pos hipDigits, List.singleton_append,
      List.dropWhile_cons_of_neg hdot]
  simp only [parseNum, htake, hdrop, if_neg hip]
  rw [if_pos ⟨trivial, hfp, hfpDigits⟩]

/-- Settles O28: a number is its leading digits and what follows them, nothing or the point and the fraction. -/
theorem numberGrammarIsDigitsPointDigits : Obligations.NumberGrammarIsDigitsPointDigits := by
  unfold Obligations.NumberGrammarIsDigitsPointDigits
  intro f n k
  refine ⟨fun hparse => ?_, ?_⟩
  · have hsplit : f.takeWhile isDigit ++ f.dropWhile isDigit = f := List.takeWhile_append_dropWhile
    have hdigits : (f.takeWhile isDigit).all isDigit = true := List.all_takeWhile
    simp only [parseNum] at hparse
    split at hparse
    · cases hparse
    · next hne =>
      split at hparse
      · next hrest =>
        cases hparse
        rw [hrest, List.append_nil] at hsplit
        rw [hsplit] at hne hdigits ⊢
        exact .inl ⟨hne, hdigits, rfl, rfl⟩
      · next c fp hrest =>
        split at hparse
        · next hfraction =>
          cases hparse
          obtain ⟨rfl, hfp, hfpDigits⟩ := hfraction
          refine .inr ⟨_, fp, ?_, hne, hfp, hdigits, hfpDigits, rfl, rfl⟩
          rw [List.append_assoc, List.singleton_append, ← hrest, hsplit]
        · cases hparse
  · rintro (⟨hne, hdigits, rfl, rfl⟩ | ⟨ip, fp, rfl, hip, hfp, hipDigits, hfpDigits, rfl, rfl⟩)
    · exact parseNum_of_digits hne hdigits
    · exact parseNum_of_point hip hfp hipDigits hfpDigits

/-- Settles O26: the text is digits, the point and `p` digits, which write `n` together. -/
theorem fixedPointTextReadsBackExactly : Obligations.FixedPointTextReadsBackExactly := by
  unfold Obligations.FixedPointTextReadsBackExactly
  intro n p hp
  have hfrac : fracDigits p n ≠ [] := List.ne_nil_of_length_pos (by rw [fracDigits_length]; exact hp)
  rw [fix, parseNum_of_point (decDigits_ne_nil _) hfrac (decDigitsFuel_all_isDigit _ _) (fracDigits_all_isDigit p n),
    digitsVal_append_fracDigits _ p n (digitsVal_decDigits _), fracDigits_length]

/-- Only zero starts with the digit zero. -/
theorem eq_zero_of_decDigitsFuel_head (fuel n : Nat) (h : n < 10 ^ (fuel + 1))
    (hhead : (decDigitsFuel fuel n).head? = some 0x30#8) : n = 0 := by
  have hzero (d : Nat) (hd : d < 10) (hdigit : decDigit d = 0x30#8) : d = 0 := by
    have := decDigit_toNat hd
    rw [hdigit, BitVec.toNat_ofNat] at this
    omega
  induction fuel generalizing n with
  | zero =>
    have hmod : n % 10 = n := Nat.mod_eq_of_lt h
    rw [decDigitsFuel, hmod] at hhead
    exact hzero n h (Option.some.inj hhead)
  | succ fuel ih =>
    rw [decDigitsFuel] at hhead
    split at hhead
    · next hn => exact hzero n hn (Option.some.inj hhead)
    · next hn =>
      have hne : decDigitsFuel fuel (n / 10) ≠ [] := List.ne_nil_of_length_pos (decDigitsFuel_length_pos _ _)
      rw [List.head?_append_of_ne_nil _ hne] at hhead
      have := ih (n / 10) ((Nat.div_lt_iff_lt_mul (by decide)).2 h) hhead
      omega

/-- Settles O27: the integer part starts with the digit zero only if it is zero, and zero is one digit. -/
theorem fixedPointTextHasNoLeadingZero : Obligations.FixedPointTextHasNoLeadingZero := by
  unfold Obligations.FixedPointTextHasNoLeadingZero
  intro n p hhead
  rw [fix, List.append_assoc, List.head?_append_of_ne_nil _ (decDigits_ne_nil _)] at hhead
  have hzero : n / 10 ^ p = 0 := eq_zero_of_decDigitsFuel_head _ _ (lt_ten_pow_log2 _) hhead
  have hlt : n < 10 ^ p := (Nat.div_eq_zero_iff_lt (by positivity)).1 hzero
  refine ⟨hlt, ?_⟩
  rw [fix, hzero]
  rfl

theorem afterCommas_one_of_not_mem {t : List Byte} (h : chComma ∉ t) : afterCommas 1 t = none := by
  induction t with
  | nil => rfl
  | cons c t ih =>
    obtain ⟨hc, ht⟩ := not_or.1 (mt List.mem_cons.2 h)
    rw [afterCommas, if_neg (Ne.symm hc), ih ht]

theorem afterCommas_one_append {p : List Byte} (t : List Byte) (h : chComma ∉ p) :
    afterCommas 1 (p ++ [chComma] ++ t) = some t := by
  induction p with
  | nil => rw [List.nil_append, List.singleton_append, afterCommas, if_pos rfl, afterCommas]
  | cons c p ih =>
    obtain ⟨hc, hp⟩ := not_or.1 (mt List.mem_cons.2 h)
    rw [List.cons_append, List.cons_append, afterCommas, if_neg (Ne.symm hc), ih hp]

/-- A text without comma, up to its end or the next comma, is what field reads. -/
theorem takeWhile_ne_comma {f t : List Byte} (hf : chComma ∉ f) (ht : t = [] ∨ t.head? = some chComma) :
    ((f ++ t).takeWhile fun c => c != chComma) = f := by
  have hpos : ∀ c ∈ f, (c != chComma) = true := fun c hc => bne_iff_ne.2 fun heq => hf (heq ▸ hc)
  rw [List.takeWhile_append_of_pos hpos]
  rcases ht with rfl | ht
  · exact List.append_nil f
  · obtain ⟨rest, rfl⟩ := List.head?_eq_some_iff.1 ht
    rw [List.takeWhile_cons_of_neg (by simp), List.append_nil]

/-- Field 1 of a body: the text after the first comma, up to the next or the end (R215). -/
theorem field_one_eq {buf p f t : List Byte} {n : Nat} (h : buf.take n = p ++ [chComma] ++ (f ++ t))
    (hp : chComma ∉ p) (hf : chComma ∉ f) (ht : t = [] ∨ t.head? = some chComma) : field buf n 1 = some f := by
  rw [field, h, afterCommas_one_append _ hp, Option.map_some, takeWhile_ne_comma hf ht]

/-- Settles O29: no comma, and the two ways field 1 ends. -/
theorem fieldOneIsTheTextAfterTheFirstComma : Obligations.FieldOneIsTheTextAfterTheFirstComma := by
  unfold Obligations.FieldOneIsTheTextAfterTheFirstComma
  intro buf n
  refine ⟨fun hnone => ?missing, fun p f hbuf hp hf => ?last, fun p f rest hbuf hp hf => ?inner⟩
  case missing => rw [field, afterCommas_one_of_not_mem hnone, Option.map_none]
  case last => exact field_one_eq (by rw [hbuf, List.append_nil]) hp hf (.inl rfl)
  case inner =>
    exact field_one_eq (t := [chComma] ++ rest) (by rw [hbuf, List.append_assoc _ f, List.append_assoc]; simp) hp hf
      (.inr rfl)

end Sys2Proof
end

section
/-! The checksum engine and CS.CHK (40_checksum.md R130 to R136). -/

namespace Sys2Proof

theorem xor8_append (a b : List Byte) : xor8 (a ++ b) = xor8 a ^^^ xor8 b := by
  have hstart : List.foldl (fun acc c => acc ^^^ c) (xor8 a ^^^ 0#8) b = xor8 a ^^^ xor8 b := List.foldl_assoc
  rw [BitVec.xor_zero] at hstart
  rw [← hstart, xor8, List.foldl_append, xor8]

theorem xor8_singleton (x : Byte) : xor8 [x] = x := BitVec.zero_xor

theorem xor8_perm {a b : List Byte} (h : a.Perm b) : xor8 a = xor8 b :=
  h.foldl_eq' (fun x _ y _ z => by rw [BitVec.xor_assoc, BitVec.xor_comm x y, BitVec.xor_assoc]) 0#8

/-- Settles O40: the engine is a fold with XOR, which is associative, commutative and cancels. -/
theorem xorEngineLaws : Obligations.XorEngineLaws := by
  unfold Obligations.XorEngineLaws
  refine ⟨xor8_append, fun a b => xor8_perm, fun a b x y hne => ?_⟩
  have hbyte (z : Byte) : xor8 (a ++ [z] ++ b) = xor8 a ^^^ xor8 b ^^^ z := by
    rw [xor8_append, xor8_append, xor8_singleton, BitVec.xor_assoc, BitVec.xor_comm z, ← BitVec.xor_assoc]
  rw [hbyte, hbyte]
  refine ⟨?_, fun heq => hne ((BitVec.xor_right_inj _).1 heq)⟩
  rw [BitVec.xor_assoc _ x x, BitVec.xor_self, BitVec.xor_zero]

theorem starIdx_of_not_mem {p : List Byte} (h : chStar ∉ p) : starIdx p = none := by
  induction p with
  | nil => rfl
  | cons c p ih =>
    obtain ⟨hc, hp⟩ := not_or.1 (mt List.mem_cons.2 h)
    rw [starIdx, if_neg (Ne.symm hc), ih hp, Option.map_none]

theorem starIdx_append {p : List Byte} (t : List Byte) (h : chStar ∉ p) :
    starIdx (p ++ [chStar] ++ t) = some p.length := by
  induction p with
  | nil => rfl
  | cons c p ih =>
    obtain ⟨hc, hp⟩ := not_or.1 (mt List.mem_cons.2 h)
    rw [List.cons_append, List.cons_append, starIdx, if_neg (Ne.symm hc), ih hp, Option.map_some, List.length_cons]

/-- What stands after the first asterisk. -/
theorem drop_after_star (p t : List Byte) : (p ++ [chStar] ++ t).drop (p.length + 1) = t :=
  List.drop_left' (by rw [List.length_append, List.length_singleton])

section
variable {p : List Byte} (h : chStar ∉ p)
include h

theorem csChkVerdict_absent : csChkVerdict p = (.absent, p.length) := by
  simp only [csChkVerdict, starIdx_of_not_mem h]

theorem bodyOf_append_star (t : List Byte) : bodyOf (p ++ [chStar] ++ t) = p.drop 1 := by
  rw [bodyOf, starIdx_append t h, Option.getD_some, List.append_assoc, List.take_left' rfl]

theorem csChkVerdict_length_ne_two {t : List Byte} (ht : t.length ≠ 2) :
    csChkVerdict (p ++ [chStar] ++ t) = (.badFormat, p.length) := by
  simp only [csChkVerdict, starIdx_append t h, drop_after_star]
  split
  · exact absurd rfl ht
  · rfl

theorem csChkVerdict_not_hex {a b : Byte} (hab : hexval a = none ∨ hexval b = none) :
    csChkVerdict (p ++ [chStar] ++ [a, b]) = (.badFormat, p.length) := by
  simp only [csChkVerdict, starIdx_append [a, b] h, drop_after_star]
  split
  · next ha hb =>
    rw [ha, hb] at hab
    rcases hab with hnone | hnone <;> cases hnone
  · rfl

theorem csChkVerdict_hex {a b : Byte} {hi lo : Nat} (ha : hexval a = some hi) (hb : hexval b = some lo) :
    csChkVerdict (p ++ [chStar] ++ [a, b]) =
      (if 16 * hi + lo = (xor8 (p.drop 1)).toNat then .isMatch else .mismatch, p.length) := by
  simp only [csChkVerdict, starIdx_append [a, b] h, drop_after_star, ha, hb, bodyOf_append_star h]
  split <;> rfl

end

/-- The two digits are read back (R132, R134). -/
theorem hexval_hexDigit {v : Nat} (h : v < 16) : hexval (hexDigit v) = some v := by
  have hall : ∀ d : Fin 16, hexval (hexDigit d) = some d.val := by decide
  exact hall ⟨v, h⟩

/-- The checksum of a sealed body matches (R136 e). -/
theorem csChkVerdict_sealed {body : List Byte} (h : chStar ∉ body) :
    csChkVerdict ([chDollar] ++ body ++ [chStar] ++ hex2 (xor8 body)) = (.isMatch, body.length + 1) := by
  have hp : chStar ∉ [chDollar] ++ body := List.not_mem_append (by decide) h
  have hbyte := (xor8 body).isLt
  have hhigh : hexval (hexDigit ((xor8 body).toNat / 16)) = some ((xor8 body).toNat / 16) :=
    hexval_hexDigit (by omega)
  have hlow : hexval (hexDigit ((xor8 body).toNat % 16)) = some ((xor8 body).toNat % 16) :=
    hexval_hexDigit (by omega)
  rw [hex2, csChkVerdict_hex hp hhigh hlow, List.singleton_append, List.drop_one, List.tail_cons, List.length_cons,
    if_pos (Nat.div_add_mod _ 16)]

end Sys2Proof

namespace Sys2Proof.Machine

/-- What CS.CHK called by itself does: the verdict stands in `ret`, every other field is kept. -/
theorem exec_csChk (buf : List Byte) (s : State) :
    exec (.csChk buf) s = .next { s with ret := some (.verdict (csChkVerdict buf).1 (csChkVerdict buf).2) } := rfl

/-- Settles O38: the verdict by what follows the first asterisk. -/
theorem csChkVerdictFollowsTheFirstStar : Obligations.CsChkVerdictFollowsTheFirstStar := by
  unfold Obligations.CsChkVerdictFollowsTheFirstStar
  intro s p t hp
  refine ⟨?absent, fun hlen => ?length, ?notHex, ?hex⟩
  case absent => rw [exec_csChk, csChkVerdict_absent hp]
  case length => rw [exec_csChk, csChkVerdict_length_ne_two hp hlen]
  case notHex =>
    rintro a b rfl hab
    rw [exec_csChk, csChkVerdict_not_hex hp hab]
  case hex =>
    rintro a b hi lo rfl ha hb
    rw [exec_csChk, csChkVerdict_hex hp ha hb]

/-- Settles O39: the verdict on a sealed body, left in `ret`. -/
theorem generatedChecksumAlwaysMatches : Obligations.GeneratedChecksumAlwaysMatches := by
  unfold Obligations.GeneratedChecksumAlwaysMatches
  intro s body hbody
  rw [exec_csChk, csChkVerdict_sealed hbody]

end Sys2Proof.Machine
end

section
/-! The encoders (43_sentence_encode.md R215 to R223): the outcomes of field 1, the frames written out, and what a
translation reads of a sentence. -/

namespace Sys2Proof

/-- The identifier of an encoder's frame as the number of R219. -/
theorem composeId_eq_ofNat (p : BitVec 3) (g : BitVec 18) (a : Byte) :
    composeId p g a = BitVec.ofNat 29 (p.toNat * 2 ^ 26 + g.toNat * 2 ^ 8 + a.toNat) := by
  rw [← composeId_toNat, BitVec.ofNat_toNat, BitVec.setWidth_eq]

end Sys2Proof

namespace Sys2Proof.Machine

section
variable (c : Scale) (p : PayloadField) {buf : List Byte} {n : Nat}

theorem rawField_missing (h : field buf n 1 = none) : rawField c p buf n = .error .fieldMissing := by
  have hfield : field buf n cfg.fieldIdx = none := h
  simp only [rawField, numField, hfield]

theorem rawField_empty (h : field buf n 1 = some []) : rawField c p buf n = .error .fieldEmpty := by
  have hfield : field buf n cfg.fieldIdx = some [] := h
  simp only [rawField, numField, hfield, if_pos]

theorem rawField_notNumeric {f : List Byte} (h : field buf n 1 = some f) (hne : f ≠ []) (hf : parseNum f = none) :
    rawField c p buf n = .error .notNumeric := by
  have hfield : field buf n cfg.fieldIdx = some f := h
  simp only [rawField, numField, hfield, if_neg hne, hf]

theorem rawField_number {f : List Byte} {v k : Nat} (h : field buf n 1 = some f) (hf : parseNum f = some (v, k)) :
    rawField c p buf n = if 2 ^ (8 * p.bytes) - 1 < c.raw v k then .error .outOfRange else .ok (c.raw v k) := by
  have hfield : field buf n cfg.fieldIdx = some f := h
  have hne : f ≠ [] := by rintro rfl; cases hf
  simp only [rawField, numField, hfield, if_neg hne, hf]

/-- An encoder reads its field and nothing else of the sentence (R223). -/
theorem rawField_congr {buf' : List Byte} {n' : Nat} (h : field buf n 1 = field buf' n' 1) :
    rawField c p buf n = rawField c p buf' n' := by
  have hfield : field buf n cfg.fieldIdx = field buf' n' cfg.fieldIdx := h
  rw [rawField, rawField, numField, numField, hfield]

end

theorem exec_encHdt (buf : List Byte) (n : Nat) (s : State) :
    exec (.encHdt buf n) s =
      .next (returning .frame (encResult hdtFrame (rawField cfg.angleScale cfg.headingField buf n) s)) := rfl

theorem exec_encDpt (buf : List Byte) (n : Nat) (s : State) :
    exec (.encDpt buf n) s =
      .next (returning .frame (encResult dptFrame (rawField cfg.depthScale cfg.depthField buf n) s)) := rfl

theorem returning_encResult_error (build : Nat → Frame) (r : MalReason) (s : State) :
    returning .frame (encResult build (.error r) s) =
      { s with diag := s.diag ++ [.malformedInput r], ret := none } := rfl

theorem returning_encResult_ok (build : Nat → Frame) (v : Nat) (s : State) :
    returning .frame (encResult build (.ok v) s) = { s with ret := some (.frame (build v)) } := rfl

/-- The raw heading of a number, in the range of 16 bits (R217, R218). -/
theorem headingField_number {buf f : List Byte} {n v k : Nat} (h : field buf n 1 = some f)
    (hf : parseNum f = some (v, k)) :
    rawField cfg.angleScale cfg.headingField buf n =
      if 0xFFFF < rdiv (v * 10 ^ 8) (572958 * 10 ^ k) then .error .outOfRange
      else .ok (rdiv (v * 10 ^ 8) (572958 * 10 ^ k)) :=
  rawField_number cfg.angleScale cfg.headingField h hf

/-- The raw depth of a number, in the range of 32 bits (R217, R218). -/
theorem depthField_number {buf f : List Byte} {n v k : Nat} (h : field buf n 1 = some f)
    (hf : parseNum f = some (v, k)) :
    rawField cfg.depthScale cfg.depthField buf n =
      if 0xFFFFFFFF < rdiv (v * 100) (10 ^ k) then .error .outOfRange else .ok (rdiv (v * 100) (10 ^ k)) := by
  rw [← depthScale_raw]
  exact rawField_number cfg.depthScale cfg.depthField h hf

theorem hdtFrame_eq (raw : Nat) : hdtFrame raw =
    { id := BitVec.ofNat 29 (2 * 2 ^ 26 + 127250 * 2 ^ 8 + cfg.srcAddr.toNat)
      ide := true
      dlc := 8#4
      data := #v[0xFF#8, BitVec.ofNat 8 raw, BitVec.ofNat 8 (raw / 256), 0xFF#8, 0xFF#8, 0xFF#8, 0xFF#8, 0xFF#8] } := by
  have hid : (hdtFrame raw).id = BitVec.ofNat 29 (2 * 2 ^ 26 + 127250 * 2 ^ 8 + cfg.srcAddr.toNat) :=
    composeId_eq_ofNat 2#3 127250#18 cfg.srcAddr
  rw [← hid, ← hdtFrame_data]
  rfl

theorem dptFrame_eq (raw : Nat) : dptFrame raw =
    { id := BitVec.ofNat 29 (3 * 2 ^ 26 + 128267 * 2 ^ 8 + cfg.srcAddr.toNat)
      ide := true
      dlc := 8#4
      data := #v[0xFF#8, BitVec.ofNat 8 raw, BitVec.ofNat 8 (raw / 256), BitVec.ofNat 8 (raw / 65536),
        BitVec.ofNat 8 (raw / 16777216), 0xFF#8, 0xFF#8, 0xFF#8] } := by
  have hid : (dptFrame raw).id = BitVec.ofNat 29 (3 * 2 ^ 26 + 128267 * 2 ^ 8 + cfg.srcAddr.toNat) :=
    composeId_eq_ofNat 3#3 128267#18 cfg.srcAddr
  rw [← hid, ← dptFrame_data]
  rfl

/-- Settles O30: the outcomes of the heading field. -/
theorem encHdtBuildsTheHeadingFrame : Obligations.EncHdtBuildsTheHeadingFrame := by
  unfold Obligations.EncHdtBuildsTheHeadingFrame
  intro s buf n
  rw [exec_encHdt]
  refine ⟨fun hnone => ?missing, fun hempty => ?empty, fun f hfield hne hf => ?notNumeric,
    fun f v k raw hfield hf hraw => ?number⟩
  case missing => rw [rawField_missing _ _ hnone, returning_encResult_error]
  case empty => rw [rawField_empty _ _ hempty, returning_encResult_error]
  case notNumeric => rw [rawField_notNumeric _ _ hfield hne hf, returning_encResult_error]
  case number =>
    rw [headingField_number hfield hf, rdiv, ← hraw]
    refine ⟨fun hhigh => ?_, fun hlow => ?_⟩
    · rw [if_pos hhigh, returning_encResult_error]
    · rw [if_neg (Nat.not_lt.2 hlow), returning_encResult_ok, hdtFrame_eq]

/-- Settles O31: the outcomes of the depth field. -/
theorem encDptBuildsTheDepthFrame : Obligations.EncDptBuildsTheDepthFrame := by
  unfold Obligations.EncDptBuildsTheDepthFrame
  intro s buf n
  rw [exec_encDpt]
  refine ⟨fun hnone => ?missing, fun hempty => ?empty, fun f hfield hne hf => ?notNumeric,
    fun f v k raw hfield hf hraw => ?number⟩
  case missing => rw [rawField_missing _ _ hnone, returning_encResult_error]
  case empty => rw [rawField_empty _ _ hempty, returning_encResult_error]
  case notNumeric => rw [rawField_notNumeric _ _ hfield hne hf, returning_encResult_error]
  case number =>
    rw [depthField_number hfield hf, rdiv, ← hraw]
    refine ⟨fun hhigh => ?_, fun hlow => ?_⟩
    · rw [if_pos hhigh, returning_encResult_error]
    · rw [if_neg (Nat.not_lt.2 hlow), returning_encResult_ok, dptFrame_eq]

/-- A checked sentence is translated by its encoder and its field 1 alone. -/
theorem encodeSentence_congr {enforce : Bool} {buf buf' : List Byte} {n n' : Nat} (s : State)
    (h : checkSentence enforce buf = .ok n) (h' : checkSentence enforce buf' = .ok n')
    (hencoder : encoderOf buf = encoderOf buf') (hfield : field buf n 1 = field buf' n' 1) :
    encodeSentence enforce buf s = encodeSentence enforce buf' s := by
  simp only [encodeSentence, h, h', hencoder]
  rcases encoderOf buf' with _ | _ | _
  · rfl
  · simp only [encHdt, rawField_congr _ _ hfield]
  · simp only [encDpt, rawField_congr _ _ hfield]

/-- The FromSerial arm does not read the message it holds but for its operand, and `endExec` kills it. -/
theorem endExec_dispatchFromSerial_cur (enforce : Bool) (buf : List Byte) (r : BusAnswer) (s : State)
    (m : Option Msg) :
    endExec (dispatchFromSerial enforce buf r { s with cur := m }) =
      endExec (dispatchFromSerial enforce buf r s) := by
  rcases dispatchFromSerial_cases enforce buf r with ⟨e, hraise⟩ | ⟨f, ev, _, _, hframe⟩
  · rw [hraise, hraise]; rfl
  · rw [hframe, hframe]; rfl

/-- A text without the two delimiters that end a field or a body. -/
def plainText (l : List Byte) : Prop := ∀ z ∈ l, z ≠ chComma ∧ z ≠ chStar

theorem plainText_append (l m : List Byte) : plainText (l ++ m) ↔ plainText l ∧ plainText m :=
  List.forall_mem_append

theorem plainText.comma_not_mem {l : List Byte} (h : plainText l) : chComma ∉ l := fun hmem => (h _ hmem).1 rfl

theorem plainText.star_not_mem {l : List Byte} (h : plainText l) : chStar ∉ l := fun hmem => (h _ hmem).2 rfl

/-- A sentence without checksum (R223): `'$'`, a talker of two bytes, the tag, anything up to the first comma, field 1,
and a tail. -/
def plainSentence (a b : Byte) (tag x f t : List Byte) : List Byte :=
  [chDollar, a, b] ++ tag ++ x ++ [chComma] ++ f ++ t

section
variable {a b : Byte} {tag x f t : List Byte} (htag : tag.length = 3)
  (hhead : plainText ([chDollar, a, b] ++ tag ++ x)) (hf : plainText f)

include htag in
theorem encoderOf_plain : encoderOf (plainSentence a b tag x f t) = cfg.encodeTable.lookup tag := by
  have htagOf : tagOf (plainSentence a b tag x f t) = tag := by
    simp [tagOf, plainSentence, List.take_left' htag]
  rw [encoderOf, htagOf]

include hhead hf in
theorem field_plain (ht : t = [] ∨ t.head? = some chComma) :
    field (plainSentence a b tag x f t) (plainSentence a b tag x f t).length 1 = some f := by
  refine field_one_eq ?_ hhead.comma_not_mem hf.comma_not_mem ht
  rw [List.take_length, plainSentence, List.append_assoc _ f t]

include htag hhead hf in
/-- Without an asterisk the whole sentence is its body. -/
theorem checkSentence_plain (ht : chStar ∉ t) :
    checkSentence true (plainSentence a b tag x f t) = .ok (plainSentence a b tag x f t).length := by
  have hlen : 6 ≤ (plainSentence a b tag x f t).length := by
    simp only [plainSentence, List.length_append, List.length_cons, List.length_nil, htag]
    omega
  have hcomma : chStar ∉ [chComma] := by decide
  have hverdict := csChkVerdict_absent (p := plainSentence a b tag x f t)
    (List.not_mem_append (List.not_mem_append (List.not_mem_append hhead.star_not_mem hcomma) hf.star_not_mem) ht)
  have hpass := checkSentence_verdict_passes (enforce := true) (buf := plainSentence a b tag x f t) rfl hlen
    (by rw [hverdict, verdictReason] <;> nofun)
  rw [hpass, hverdict]

end

/-- Settles O34: both sentences pass whole, select by the same tag, and have the same field 1. -/
theorem encodingIgnoresTalkerAndLaterFields : Obligations.EncodingIgnoresTalkerAndLaterFields := by
  unfold Obligations.EncodingIgnoresTalkerAndLaterFields
  intro s r tag a b c d x y f t u htag hclean hstarT hstarU ht hu
  have htagLength : tag.length = 3 := by rcases htag with rfl | rfl <;> rfl
  have htagPlain : plainText tag := by rcases htag with rfl | rfl <;> unfold plainText <;> decide
  have hplain : plainText ([a, b] ++ [c, d] ++ x ++ y ++ f) := hclean
  simp only [plainText_append] at hplain
  obtain ⟨⟨⟨⟨hab, hcd⟩, hx⟩, hy⟩, hf⟩ := hplain
  have hdollar : plainText [chDollar] := by unfold plainText; decide
  have hhead : plainText ([chDollar] ++ [a, b] ++ tag ++ x) := by
    simp only [plainText_append]
    exact ⟨⟨⟨hdollar, hab⟩, htagPlain⟩, hx⟩
  have hhead' : plainText ([chDollar] ++ [c, d] ++ tag ++ y) := by
    simp only [plainText_append]
    exact ⟨⟨⟨hdollar, hcd⟩, htagPlain⟩, hy⟩
  have hencode : encodeSentence true (plainSentence a b tag x f t) s =
      encodeSentence true (plainSentence c d tag y f u) s :=
    encodeSentence_congr s (checkSentence_plain htagLength hhead hf hstarT)
      (checkSentence_plain htagLength hhead' hf hstarU)
      ((encoderOf_plain htagLength).trans (encoderOf_plain htagLength).symm)
      ((field_plain hhead hf ht).trans (field_plain hhead' hf hu).symm)
  change exec _ { s with cur := some (.fromSerial (plainSentence a b tag x f t)) } =
    exec _ { s with cur := some (.fromSerial (plainSentence c d tag y f u)) }
  rw [exec_dispatchFromSerial _ _ r rfl, exec_dispatchFromSerial _ _ r rfl,
    endExec_dispatchFromSerial_cur true (plainSentence a b tag x f t) r s,
    endExec_dispatchFromSerial_cur true (plainSentence c d tag y f u) r s, dispatchFromSerial, dispatchFromSerial,
    hencode]

end Sys2Proof.Machine
end

section
/-! The round trips (43_sentence_encode.md R224): a sealed sentence as the reassembler would hold it, through the checks,
the selection and the encoder. -/

namespace Sys2Proof.Machine

/-- A body sealed but for CR and LF (R133): what the reassembler makes of a generated sentence. -/
def sealedBody (body : List Byte) : List Byte := [chDollar] ++ body ++ [chStar] ++ hex2 (xor8 body)

theorem csGenBytes_take_eq_sealedBody (body : List Byte) :
    (csGenBytes body).take ((csGenBytes body).length - 2) = sealedBody body := by
  have hlen : (csGenBytes body).length - 2 = (sealedBody body).length := by
    rw [csGenBytes_length]
    simp [sealedBody, hex2]
  rw [hlen, csGenBytes_eq_append]
  exact List.take_left' rfl

theorem star_not_mem_of_bodyOk {body : List Byte} (h : bodyOk body = true) : chStar ∉ body := by
  intro hmem
  have := List.all_eq_true.1 h _ hmem
  simp at this

theorem checkSentence_sealedBody {body : List Byte} (h : bodyOk body = true) (hlen : 2 ≤ body.length) :
    checkSentence true (sealedBody body) = .ok (body.length + 1) := by
  have hverdict := csChkVerdict_sealed (star_not_mem_of_bodyOk h)
  have hlong : 6 ≤ (sealedBody body).length := by
    simp only [sealedBody, hex2, List.length_append, List.length_cons, List.length_nil]
    omega
  have hpass := checkSentence_verdict_passes (enforce := true) (buf := sealedBody body) rfl hlong
    (by rw [sealedBody, hverdict, verdictReason] <;> nofun)
  rw [hpass, sealedBody, hverdict]

/-- Below its `bodyEnd` a sealed sentence is the dollar sign and the body. -/
theorem take_sealedBody (body : List Byte) : (sealedBody body).take (body.length + 1) = [chDollar] ++ body := by
  rw [sealedBody, List.append_assoc]
  exact List.take_left' (by rw [List.length_append, List.length_singleton, Nat.add_comm])

theorem comma_not_mem_fix (n p : Nat) : chComma ∉ fix n p := by
  have hdigit {l : List Byte} (h : l.all isDigit = true) : chComma ∉ l := fun hmem => by
    have := List.all_eq_true.1 h _ hmem
    revert this
    decide
  exact List.not_mem_append (List.not_mem_append (hdigit (decDigitsFuel_all_isDigit _ _)) (by decide))
    (hdigit (fracDigits_all_isDigit p n))

theorem field_sealed_hdtBody (h : Nat) :
    field (sealedBody (hdtBody h)) ((hdtBody h).length + 1) 1 = some (fix (rdiv (h * 572958) (10 ^ 7)) 1) := by
  refine field_one_eq (p := [chDollar] ++ asc ['H', 'E', 'H', 'D', 'T']) (t := asc [',', 'T']) ?_ (by decide)
    (comma_not_mem_fix _ _) (.inr rfl)
  have hhead : asc ['H', 'E', 'H', 'D', 'T', ','] = asc ['H', 'E', 'H', 'D', 'T'] ++ [chComma] := rfl
  simp only [take_sealedBody, hdtBody_eq, hhead, List.append_assoc]

theorem field_sealed_dptBody (d : Nat) :
    field (sealedBody (dptBody d)) ((dptBody d).length + 1) 1 = some (fix d 2) := by
  refine field_one_eq (p := [chDollar] ++ asc ['H', 'E', 'D', 'P', 'T']) (t := asc [',', '0', '.', '0', ',']) ?_
    (by decide) (comma_not_mem_fix _ _) (.inr rfl)
  have hhead : asc ['H', 'E', 'D', 'P', 'T', ','] = asc ['H', 'E', 'D', 'P', 'T'] ++ [chComma] := rfl
  simp only [take_sealedBody, dptBody_eq, hhead, List.append_assoc]

theorem encoderOf_sealed_hdtBody (h : Nat) : encoderOf (sealedBody (hdtBody h)) = some .hdt := by
  have htag : tagOf (sealedBody (hdtBody h)) = [0x48#8, 0x44#8, 0x54#8] := by
    simp only [tagOf, sealedBody, hdtBody_eq, List.append_assoc]
    rfl
  rw [encoderOf_eq_ite, if_pos htag]

theorem encoderOf_sealed_dptBody (d : Nat) : encoderOf (sealedBody (dptBody d)) = some .dpt := by
  have htag : tagOf (sealedBody (dptBody d)) = [0x44#8, 0x50#8, 0x54#8] := by
    simp only [tagOf, sealedBody, dptBody_eq, List.append_assoc]
    rfl
  rw [encoderOf_eq_ite, htag, if_neg (by decide), if_pos rfl]

/-- What DEC.HDT returns of a long enough frame is the sealed body of its heading. -/
theorem sentence_of_decHdt {s u : State} {f : Frame} {out : List Byte} (hlen : 3 ≤ f.dlc.toNat)
    (hexec : exec (.decHdt f) s = .next u) (hret : u.ret = some (.sentence out)) :
    out = csGenBytes (hdtBody (rawHeading f)) := by
  rw [exec_decHdt, decHdt_stores s hlen, returning_stored] at hexec
  cases hexec
  cases hret
  rfl

/-- What DEC.DPT returns of a long enough frame is the sealed body of its depth. -/
theorem sentence_of_decDpt {s u : State} {f : Frame} {out : List Byte} (hlen : 5 ≤ f.dlc.toNat)
    (hexec : exec (.decDpt f) s = .next u) (hret : u.ret = some (.sentence out)) :
    out = csGenBytes (dptBody (rawDepth f)) := by
  rw [exec_decDpt, decDpt_stores s hlen, returning_stored] at hexec
  cases hexec
  cases hret
  rfl

/-- The printed depth is the raw depth: nothing is lost on the way back (R107, R108). -/
theorem depthField_sealed_dptBody (d : Nat) (hd : d < 2 ^ 32) :
    rawField cfg.depthScale cfg.depthField (sealedBody (dptBody d)) ((dptBody d).length + 1) = .ok d := by
  have hnumber : parseNum (fix d 2) = some (d, 2) := fixedPointTextReadsBackExactly d 2 (by decide)
  have hraw : rdiv (d * 100) (10 ^ 2) = d := by rw [rdiv]; omega
  rw [depthField_number (field_sealed_dptBody d) hnumber, hraw, if_neg (by omega)]

/-- The four bytes of a depth read from a frame are the bytes it came from. -/
theorem dptFrame_rawDepth_data (f : Frame) :
    (dptFrame (rawDepth f)).data[1] = f.data[1] ∧ (dptFrame (rawDepth f)).data[2] = f.data[2] ∧
      (dptFrame (rawDepth f)).data[3] = f.data[3] ∧ (dptFrame (rawDepth f)).data[4] = f.data[4] := by
  have hbyte {n : Nat} {b : Byte} (h : n % 256 = b.toNat) : BitVec.ofNat 8 n = b :=
    BitVec.eq_of_toNat_eq (by rw [BitVec.toNat_ofNat]; exact h)
  have h1 := f.data[1].isLt
  have h2 := f.data[2].isLt
  have h3 := f.data[3].isLt
  have h4 := f.data[4].isLt
  simp only [dptFrame_data]
  exact ⟨hbyte (by rw [rawDepth_eq]; omega), hbyte (by rw [rawDepth_eq]; omega), hbyte (by rw [rawDepth_eq]; omega),
    hbyte (by rw [rawDepth_eq]; omega)⟩

/-- Settles O35: the sentence is the sealed body of the raw depth, which comes back whole. -/
theorem depthSurvivesDecodeThenEncode : Obligations.DepthSurvivesDecodeThenEncode := by
  unfold Obligations.DepthSurvivesDecodeThenEncode
  intro s u f out hlen hexec hret
  rw [sentence_of_decDpt hlen hexec hret, csGenBytes_take_eq_sealedBody]
  have hbody : 2 ≤ (dptBody (rawDepth f)).length := by rw [dptBody_length]; omega
  have hcheck := checkSentence_sealedBody (dptBody_ok (rawDepth f)) hbody
  refine ⟨_, dptFrame (rawDepth f), hcheck, ?selects, ?encodes, dptFrame_rawDepth_data f⟩
  case selects => rw [decode_tag3_of_checked hcheck, encoderOf_sealed_dptBody, encoderInstr]
  case encodes => rw [exec_encDpt, depthField_sealed_dptBody _ (rawDepth_lt f), returning_encResult_ok]

/-- Heading there and back (R224): rounded to tenths of a degree, and then to raw units. -/
def headingBack (h : Nat) : Nat := rdiv (rdiv (h * 572958) (10 ^ 7) * 10 ^ 8) (572958 * 10 ^ 1)

/-- Half a tenth of a degree is about 8.7 raw units, and the second rounding adds half a unit. Headings that print 375.5
or more are above the range of 16 bits. -/
theorem headingBack_bounds (h : Nat) :
    h ≤ headingBack h + 9 ∧ headingBack h ≤ h + 9 ∧ (h ≤ 65528 → headingBack h ≤ 0xFFFF) ∧
      (65529 ≤ h → 0xFFFF < headingBack h) := by
  simp only [headingBack, rdiv]
  omega

theorem headingField_sealed_hdtBody (h : Nat) :
    rawField cfg.angleScale cfg.headingField (sealedBody (hdtBody h)) ((hdtBody h).length + 1) =
      if 0xFFFF < headingBack h then .error .outOfRange else .ok (headingBack h) :=
  headingField_number (field_sealed_hdtBody h) (fixedPointTextReadsBackExactly _ 1 (by decide))

theorem rawHeading_hdtFrame (raw : Nat) (h : raw ≤ 0xFFFF) : rawHeading (hdtFrame raw) = raw := by
  rw [rawHeading_eq]
  simp only [hdtFrame_data, Vector.getElem_mk, List.getElem_toArray, List.getElem_cons_succ, List.getElem_cons_zero,
    BitVec.toNat_ofNat]
  omega

/-- Settles O36: the sentence is the sealed body of the raw heading, and `headingBack_bounds` says what comes back. -/
theorem headingSurvivesDecodeThenEncodeWithin9 : Obligations.HeadingSurvivesDecodeThenEncodeWithin9 := by
  unfold Obligations.HeadingSurvivesDecodeThenEncodeWithin9
  intro s u f out h hlen hraw hexec hret
  rw [← rawHeading_eq] at hraw
  subst hraw
  rw [sentence_of_decHdt hlen hexec hret, csGenBytes_take_eq_sealedBody]
  have hbody : 2 ≤ (hdtBody (rawHeading f)).length := by rw [hdtBody_length]; omega
  have hcheck := checkSentence_sealedBody (hdtBody_ok (rawHeading f)) hbody
  obtain ⟨hlow, hhigh, hfits, hoverflows⟩ := headingBack_bounds (rawHeading f)
  refine ⟨_, hcheck, ?selects, fun hin => ?within, fun hout => ?outOfRange⟩
  case selects => rw [decode_tag3_of_checked hcheck, encoderOf_sealed_hdtBody, encoderInstr]
  case within =>
    refine ⟨hdtFrame (headingBack (rawHeading f)), ?_, ?_⟩
    · rw [exec_encHdt, headingField_sealed_hdtBody, if_neg (Nat.not_lt.2 (hfits hin)), returning_encResult_ok]
    · rw [← rawHeading_eq, rawHeading_hdtFrame _ (hfits hin)]
      exact ⟨hlow, hhigh⟩
  case outOfRange =>
    rw [exec_encHdt, headingField_sealed_hdtBody, if_pos (hoverflows hout), returning_encResult_error]

end Sys2Proof.Machine
end
